-- ==== Sys2Proof/Word.lean ====
section
/-! DEFINITION. The word types of the CIC: 32-bit values, command words and response words (00_scope.md R5, R10), bytes for
the byte view of a stream (20_memory.md R44), and bit streams in stream order, first bit first (00_scope.md R11). -/

namespace Sys2Proof

/-- A value, command word, payload word, response word, literal or offset: 32 bits (R5, R10). -/
abbrev Word := BitVec 32

/-- A byte of the byte view of a stream (R44). -/
abbrev Byte := BitVec 8

/-- A bit stream, or a bit string, in stream order: the head is the first bit on the wire (R11). -/
abbrev BitString := List Bool

end Sys2Proof
end

