-- ==== Sys2Proof/Syntax.lean ====
section
/-! DEFINITION. The commands of the CIC, one constructor per row of the opcode map (30_encoding.md R74). The fields have the
widths of the command word's fields (R71): T 8 bits, S 2 bits, K 2 bits, N 6 bits, and the payload word 32 bits (R76). -/

namespace Sys2Proof

/-- A decoded command (R74). A payload word is an operand of the command it follows (R76). -/
inductive Instr where
  /-- NOP (R110). -/
  | nop
  /-- DEC t (R87). -/
  | dec (t : BitVec 8)
  /-- ENC t, v (R88). -/
  | enc (t : BitVec 8) (v : Word)
  /-- SIZE t, v (R89). -/
  | size (t : BitVec 8) (v : Word)
  /-- TBL.WR t, s, K, n, P (R100): every (K, n) pattern is a command, its legality is checked when it runs (R75). -/
  | tblWr (t : BitVec 8) (s : BitVec 2) (k : BitVec 2) (n : BitVec 6) (p : Word)
  /-- TBL.RD t, s (R101). -/
  | tblRd (t : BitVec 8) (s : BitVec 2)
  /-- CLRERR (R111). -/
  | clrerr
  deriving DecidableEq, Repr

end Sys2Proof
end

