-- ==== Sys2Proof/WellFormed.lean ====
section
/-! DEFINITION. Assembler lines (30_encoding.md R80, R81) and the checks an assembler makes on them. Every term of `Instr` is
well formed, because its fields have exactly the widths of the command word's fields; what can be ill formed is a source
line, whose operands are unbounded numbers: "An assembler refuses a value that does not fit its field" (R80). -/

namespace Sys2Proof

/-- The descriptor operand of TBL.WR and TBL.SET: `VAL v`, `BITS n` or `BITSOFF n, off` (R80). -/
inductive AsmDesc where
  | val (v : Nat)
  | bits (n : Nat)
  | bitsOff (n off : Nat)
  deriving DecidableEq, Repr

/-- One line of assembler source (R80), with the pseudo-instruction TBL.SET (R81) and the raw word `.word w`. -/
inductive AsmLine where
  | nop
  | dec (t : Nat)
  | enc (t v : Nat)
  | size (t v : Nat)
  | tblWr (t s : Nat) (d : AsmDesc)
  | tblRd (t s : Nat)
  | clrerr
  | word (w : Nat)
  | tblSet (t : Nat) (d0 d1 d2 d3 : AsmDesc)
  deriving DecidableEq, Repr

/-- A table index fits the T field: "t > 255" is refused (R80). -/
def fitsTable (t : Nat) : Bool := t ≤ 255

/-- An entry index fits the S field: "s > 3" is refused (R80). -/
def fitsEntry (s : Nat) : Bool := s ≤ 3

/-- A raw-bit width fits the N field: "n > 63" is refused (R80). Widths 33 to 63 are assembled; the CIC rejects them. -/
def fitsWidth (n : Nat) : Bool := n ≤ 63

/-- A 32-bit operand: "a 32-bit operand ≥ 2^32" is refused (R80). -/
def fitsWord (v : Nat) : Bool := v < 2 ^ 32

/-- The operands of a descriptor fit their fields (R80). -/
def AsmDesc.wellFormed : AsmDesc → Bool
  | .val v => fitsWord v
  | .bits n => fitsWidth n
  | .bitsOff n off => fitsWidth n && fitsWord off

/-- Every operand of a source line fits its field (R80). -/
def AsmLine.wellFormed : AsmLine → Bool
  | .nop => true
  | .dec t => fitsTable t
  | .enc t v => fitsTable t && fitsWord v
  | .size t v => fitsTable t && fitsWord v
  | .tblWr t s d => fitsTable t && fitsEntry s && d.wellFormed
  | .tblRd t s => fitsTable t && fitsEntry s
  | .clrerr => true
  | .word w => fitsWord w
  | .tblSet t d0 d1 d2 d3 => fitsTable t && d0.wellFormed && d1.wellFormed && d2.wellFormed && d3.wellFormed

end Sys2Proof
end

