-- ==== Sys2Proof/Decode.lean ====
section
/-! DEFINITION. The command decoder, total on every word and rejecting by name (30_encoding.md R71-R79), and after it the
encoder of a command's words and the assembler of a source line (R80, R81). -/

namespace Sys2Proof

/-- The two formats of a command (R72): H is one header word, HP a header word and one payload word. -/
inductive Format where
  | h
  | hp
  deriving DecidableEq, Repr

/-- Why words are no command. -/
inductive DecodeError where
  /-- OP is 0x6 to 0xE (R77). -/
  | reservedOp
  /-- A field the opcode does not use is not 0 (R75). -/
  | nonzeroUnused
  /-- There is no header word to decode. -/
  | noHeader
  /-- A 2-word header without its payload word (R73). -/
  | noPayload
  deriving DecidableEq, Repr

/-! ### Fields of a command word (R71) -/

/-- OP, bits [31:28]. -/
def opOf (w : Word) : BitVec 4 := w.extractLsb' 28 4

/-- T, bits [27:20]: the table index. -/
def tOf (w : Word) : BitVec 8 := w.extractLsb' 20 8

/-- S, bits [19:18]: the entry index. -/
def sOf (w : Word) : BitVec 2 := w.extractLsb' 18 2

/-- K, bits [17:16]: the kind code. -/
def kOf (w : Word) : BitVec 2 := w.extractLsb' 16 2

/-- N, bits [15:10]: the raw-bit width. -/
def nOf (w : Word) : BitVec 6 := w.extractLsb' 10 6

/-- RSV, bits [9:0]: reserved, 0 in every command. -/
def rsvOf (w : Word) : BitVec 10 := w.extractLsb' 0 10

/-! ### Length (R73) -/

/-- `Len(W)`, a function of OP alone: 2 for OP 0x2 (ENC), 0x3 (SIZE), 0x4 (TBL.WR), 1 otherwise, reserved opcodes
included (R73). -/
def wordLen (w : Word) : Nat :=
  if opOf w = 0x2#4 ∨ opOf w = 0x3#4 ∨ opOf w = 0x4#4 then 2 else 1

/-- The format that goes with `Len(W)` (R72, R73). -/
def formatOf (w : Word) : Format := if wordLen w = 2 then .hp else .h

/-! ### The opcode table (R75) -/

/-- One row of R75: the fixed bits of an opcode as (mask, match). -/
structure OpRow where
  mask : Word
  pat : Word
  deriving DecidableEq, Repr

/-- The word has the row's fixed bits: `(W & mask) = match` (R79). -/
def OpRow.admits (r : OpRow) (w : Word) : Bool := w &&& r.mask == r.pat

/-- NOP (R75). -/
def rowNop : OpRow := ⟨0xFFFFFFFF#32, 0x00000000#32⟩
/-- DEC (R75). -/
def rowDec : OpRow := ⟨0xF00FFFFF#32, 0x10000000#32⟩
/-- ENC (R75). -/
def rowEnc : OpRow := ⟨0xF00FFFFF#32, 0x20000000#32⟩
/-- SIZE (R75). -/
def rowSize : OpRow := ⟨0xF00FFFFF#32, 0x30000000#32⟩
/-- TBL.WR (R75). -/
def rowTblWr : OpRow := ⟨0xF00003FF#32, 0x40000000#32⟩
/-- TBL.RD (R75). -/
def rowTblRd : OpRow := ⟨0xF003FFFF#32, 0x50000000#32⟩
/-- CLRERR (R75). -/
def rowClrerr : OpRow := ⟨0xFFFFFFFF#32, 0xF0000000#32⟩

/-- The seven rows of R75 in its order. -/
def opTable : List OpRow := [rowNop, rowDec, rowEnc, rowSize, rowTblWr, rowTblRd, rowClrerr]

/-- OP is reserved: 0x6 to 0xE (R77). -/
def reservedOp (w : Word) : Bool := 0x6#4 ≤ opOf w && opOf w ≤ 0xE#4

/-- `Decode(W)` (R79): the command the header `w` names, with its payload word `p` where it has one (a 1-word command does
not look at `p`; a payload is never decoded, R76). Every word that matches no row of R75 is rejected by name. -/
def decode (w p : Word) : Except DecodeError Instr :=
  if rowNop.admits w then .ok .nop
  else if rowDec.admits w then .ok (.dec (tOf w))
  else if rowEnc.admits w then .ok (.enc (tOf w) p)
  else if rowSize.admits w then .ok (.size (tOf w) p)
  else if rowTblWr.admits w then .ok (.tblWr (tOf w) (sOf w) (kOf w) (nOf w) p)
  else if rowTblRd.admits w then .ok (.tblRd (tOf w) (sOf w))
  else if rowClrerr.admits w then .ok .clrerr
  else if reservedOp w then .error .reservedOp
  else .error .nonzeroUnused

/-- Decoding the front of a command stream: the command and the words after it. -/
def decodeWords : List Word → Except DecodeError (Instr × List Word)
  | [] => .error .noHeader
  | w :: rest =>
    match formatOf w with
    | .h => (decode w 0#32).map (fun i => (i, rest))
    | .hp =>
      match rest with
      | [] => .error .noPayload
      | p :: rest' => (decode w p).map (fun i => (i, rest'))

/-! ### The host's view of the decoder -/

/-- The header word of an instruction whose bits are `w`, of which the lowest `nbits` count. -/
def tableHeader (nbits w : Nat) : Word := BitVec.ofNat 32 (w % 2 ^ nbits)

/-- The payload word of an instruction whose bits are `w`, of which the lowest `nbits` count: bits 63..32. -/
def tablePayload (nbits w : Nat) : Word := BitVec.ofNat 32 (w % 2 ^ nbits / 2 ^ 32)

/-- The instruction the decoder reads from the bits `w` (bit 0 is bit 0 of the header, bit 32 is bit 0 of the payload; bits
from `nbits` up are 0). -/
def decodeTableWord (nbits w : Nat) : Option Instr :=
  (decode (tableHeader nbits w) (tablePayload nbits w)).toOption

/-! ### The encoder (R71, R74, R80) -/

/-- The format of a command (R74). -/
def Instr.format : Instr → Format
  | .nop => .h
  | .dec _ => .h
  | .enc _ _ => .hp
  | .size _ _ => .hp
  | .tblWr _ _ _ _ _ => .hp
  | .tblRd _ _ => .h
  | .clrerr => .h

/-- The word `{OP, T, S, K, N, RSV}` (R71). -/
def packWord (op : BitVec 4) (t : BitVec 8) (s k : BitVec 2) (n : BitVec 6) (rsv : BitVec 10) : Word :=
  op ++ t ++ s ++ k ++ n ++ rsv

/-- The header word of a command, every field its opcode does not use 0 (R74, R75). -/
def header : Instr → Word
  | .nop => packWord 0x0#4 0#8 0#2 0#2 0#6 0#10
  | .dec t => packWord 0x1#4 t 0#2 0#2 0#6 0#10
  | .enc t _ => packWord 0x2#4 t 0#2 0#2 0#6 0#10
  | .size t _ => packWord 0x3#4 t 0#2 0#2 0#6 0#10
  | .tblWr t s k n _ => packWord 0x4#4 t s k n 0#10
  | .tblRd t s => packWord 0x5#4 t s 0#2 0#6 0#10
  | .clrerr => packWord 0xF#4 0#8 0#2 0#2 0#6 0#10

/-- The words of a command: the header, and the payload where the format is HP (R72, R76). -/
def encode : Instr → List Word
  | .nop => [header .nop]
  | .dec t => [header (.dec t)]
  | .enc t v => [header (.enc t v), v]
  | .size t v => [header (.size t v), v]
  | .tblWr t s k n p => [header (.tblWr t s k n p), p]
  | .tblRd t s => [header (.tblRd t s)]
  | .clrerr => [header .clrerr]

/-! ### The assembler (R80, R81) -/

/-- `TBL.WR t, s, d` as a command: the kind code, n and param of the operand form (R80). Values that fit their fields but
fail `Legal` are assembled as written. -/
def AsmDesc.tblWr (t s : Nat) : AsmDesc → Instr
  | .val v => .tblWr (BitVec.ofNat 8 t) (BitVec.ofNat 2 s) 0b00#2 0#6 (BitVec.ofNat 32 v)
  | .bits n => .tblWr (BitVec.ofNat 8 t) (BitVec.ofNat 2 s) 0b01#2 (BitVec.ofNat 6 n) 0#32
  | .bitsOff n off => .tblWr (BitVec.ofNat 8 t) (BitVec.ofNat 2 s) 0b10#2 (BitVec.ofNat 6 n) (BitVec.ofNat 32 off)

/-- The command words of a source line, its operands taken to fit (R80); TBL.SET is four TBL.WR in selector order (R81). -/
def AsmLine.words : AsmLine → List Word
  | .nop => encode .nop
  | .dec t => encode (.dec (BitVec.ofNat 8 t))
  | .enc t v => encode (.enc (BitVec.ofNat 8 t) (BitVec.ofNat 32 v))
  | .size t v => encode (.size (BitVec.ofNat 8 t) (BitVec.ofNat 32 v))
  | .tblWr t s d => encode (d.tblWr t s)
  | .tblRd t s => encode (.tblRd (BitVec.ofNat 8 t) (BitVec.ofNat 2 s))
  | .clrerr => encode .clrerr
  | .word w => [BitVec.ofNat 32 w]
  | .tblSet t d0 d1 d2 d3 =>
    encode (d0.tblWr t 0) ++ encode (d1.tblWr t 1) ++ encode (d2.tblWr t 2) ++ encode (d3.tblWr t 3)

/-- The assembler: the words of a line whose operands fit, or a refusal (R80). -/
def AsmLine.assemble (l : AsmLine) : Option (List Word) :=
  if l.wellFormed then some l.words else none

end Sys2Proof
end

