-- ==== Sys2Proof/Config.lean ====
section
/-! DEFINITION. What an implementation of the CIC fixes and what the spec leaves open: the shape of a table (10_state.md R21,
R22), the OPEN parameters NUM_TABLES, RSP_DEPTH and TABLE_INIT (00_scope.md R7-R9), and the free draw of an IN_EXHAUSTED
failure (10_state.md R35). -/

namespace Sys2Proof

/-- The kind of a stored descriptor (R60, R61); the reserved code 0b11 is never stored (R62). -/
inductive Kind where
  | val
  | bits
  | bitsOffset
  deriving DecidableEq, Repr

/-- The descriptor fields of a valid table entry (R22): kind, raw-bit width and param. -/
structure Desc where
  kind : Kind
  n : BitVec 6
  param : Word
  deriving DecidableEq, Repr

/-- A table entry (R22). `none` is valid = 0: "Its kind, n and param hold no value" (R23). -/
abbrev Entry := Option Desc

/-- Four like things indexed by a 2-bit selector (R21). -/
structure Quad (α : Type) where
  e0 : α
  e1 : α
  e2 : α
  e3 : α
  deriving DecidableEq, Repr

/-- A selector table: the 4 entries TBL[t][0..3] (R21, R64). -/
abbrev Table := Quad Entry

/-- The OPEN parameters of a CIC (R7-R9). TABLE_INIT lists one table for each t, so NUM_TABLES is its length. -/
structure Params where
  tableInit : List Table
  rspDepth : Nat
  deriving DecidableEq, Repr

/-- NUM_TABLES (R7): the number of tables TABLE_INIT gives. -/
def Params.numTables (p : Params) : Nat := p.tableInit.length

/-- The parameter values of the spec's own programs (95_test_vectors.md part 3): NUM_TABLES = 4, RSP_DEPTH = 8, and
TABLE_INIT with its reference value "every entry invalid" (R9). DESIGN CHOICE for `State.reset`, log 1. -/
def Params.reference : Params where
  tableInit := List.replicate 4 ⟨none, none, none, none⟩
  rspDepth := 8

/-- FREE VALUE: the number behind the draw k of the i-th IN_EXHAUSTED failure; the failing DEC loses this number modulo
|IN| + 1 of its input bits, so k is any number in [0, |IN|] (R35, R127, I1). It has no body: nothing can be proved of its
values. Log 3. -/
opaque Config.inputLossDraw : Nat → Nat

end Sys2Proof
end

