-- ==== Sys2Proof/Machine/State.lean ====
section
/-! DEFINITION. The state of the CIC as plain data (10_state.md R20), the host's actions and turns (20_memory.md R55, R56),
why a step can stop, and the state after reset (R37). -/

namespace Sys2Proof.Machine

/-- The error codes a command can raise (60_exceptions.md R121); their numbers are `ErrCode.code`. -/
inductive ErrCode where
  | illegal
  | tindex
  | tableInvalid
  | desc
  | noAlt
  | inExhausted
  deriving DecidableEq, Repr

/-- One atomic action of the host (R55). -/
inductive HostAction where
  | pushCmd (w : Word)
  | pushBits (bs : BitString)
  | setEos
  | flushIn
  | popRsp
  | takeOut (k : Nat)
  | readStatus
  | reset
  deriving DecidableEq, Repr

/-- What an action of the host returned (R55, column "returns"). -/
inductive HostReturn where
  | popped (w : Word)
  | took (bs : BitString)
  | status (w : Word)
  deriving DecidableEq, Repr

/-- Whose turn it is: the CIC's, or the host's with one action (R56). -/
inductive Turn where
  | cic
  | host (a : HostAction)
  deriving DecidableEq, Repr

/-- The state. The fields down to `outBits` are the architectural state of R20 with the constant parameters of R38; `faultMark`
is the model's mark of R133; `draws`, `agenda` and `seen` are the model's own (logs 3, 6, 8). -/
structure State where
  /-- The OPEN parameters (R7-R9, R38): no step changes them (log 1). -/
  params : Params
  /-- TBL, the selector-table memory (R21): table t is the list's element t, and NUM_TABLES its length. -/
  tbl : List Table
  /-- STATUS.ERR (R24, R25). -/
  err : BitVec 4
  /-- STATUS.LSEL (R24, R26). -/
  lsel : BitVec 2
  /-- STATUS.LLEN (R24, R26). -/
  llen : BitVec 6
  /-- RSP, the response queue, head first (R29). -/
  rsp : List Word
  /-- CMDQ, the command words not yet consumed, head first (R30). -/
  cmdq : List Word
  /-- PEND, a 2-word header waiting for its payload (R30). -/
  pend : Option Word
  /-- IN, the input bits not yet consumed (R31). -/
  inBits : BitString
  /-- EOS: the host has declared that no further input bits follow (R31). -/
  eos : Bool
  /-- OUT, the bits ENC has written and the host has not taken (R32). -/
  outBits : BitString
  /-- The model's fault mark: an error has been raised at some time (R133). -/
  faultMark : Bool
  /-- How many free draws have been taken (log 3). -/
  draws : Nat
  /-- The turns still to come, first turn first; when it is empty every turn is the CIC's (log 6). -/
  agenda : List Turn
  /-- What the host's actions have returned, oldest first (R159, log 8). -/
  seen : List HostReturn
  deriving DecidableEq, Repr

/-- Why the machine stops. Every fault is a turn of the host that has no move (R55): none is an instruction's. -/
inductive Fault where
  /-- PushBits while EOS = 1: "Such a push has no move in the model" (R55, I20). Raised by the host's PushBits. Safe: the
  spec gives the interleaving no continuation. -/
  | pushBitsAfterEos
  /-- PopRsp while RSP is empty: the action's precondition (R55) fails. Raised by the host's PopRsp. Safe. -/
  | popRspEmpty
  /-- TakeOut(k) while OUT holds fewer than k bits: the action's precondition (R55) fails. Raised by the host's TakeOut.
  Safe. -/
  | takeOutTooMany
  deriving DecidableEq, Repr

/-- Why the model gives no meaning. -/
inductive Refusal where
  /-- The instruction has no meaning yet. Raised by no arm of this model. Safe. -/
  | notModelled (mnemonic : String)
  /-- STATUS.ERR holds 7 to 15: "never produced; a model that sees one must refuse" (93_implementation_defined.md I14, R121).
  Raised by a command that starts, and by ReadStatus, in such a state, which no run reaches. Safe. -/
  | reservedErrorCode
  deriving DecidableEq, Repr

/-- The machine right after reset with the parameters `p` (R37); the model's own fields are empty (logs 3, 6, 8, 9). -/
def State.resetWith (p : Params) : State where
  params := p
  tbl := p.tableInit
  err := 0
  lsel := 0
  llen := 0
  rsp := []
  cmdq := []
  pend := none
  inBits := []
  eos := false
  outBits := []
  faultMark := false
  draws := 0
  agenda := []
  seen := []

/-- The machine right after reset (R37), with the reference parameters (log 1). -/
def State.reset : State := State.resetWith Params.reference

end Sys2Proof.Machine
end

