-- ==== Sys2Proof/Machine/Flags.lean ====
section
/-! DEFINITION. The STATUS register: error codes, the computed IDLE bit and `err_o`, and the word a host reads (10_state.md
R24-R28, R36; 60_exceptions.md R121). -/

namespace Sys2Proof.Machine

/-- The number of an error in STATUS.ERR (R121). -/
def ErrCode.code : ErrCode → BitVec 4
  | .illegal => 1#4
  | .tindex => 2#4
  | .tableInvalid => 3#4
  | .desc => 4#4
  | .noAlt => 5#4
  | .inExhausted => 6#4

/-- STATUS.ERR holds a reserved code, 7 to 15 (R121, I14). -/
def State.reservedErr (s : State) : Bool := 7#4 ≤ s.err

/-- STATUS.IDLE (R27): CMDQ is empty and PEND is none. A held command stands in CMDQ, so none is held then. -/
def State.idle (s : State) : Bool := s.cmdq.isEmpty && s.pend.isNone

/-- The level output `err_o` (R36). -/
def State.errO (s : State) : Bool := s.err != 0#4

/-- STATUS as the host reads it: IDLE [31], LLEN [13:8], LSEL [5:4], ERR [3:0], reserved bits 0 (R24). -/
def State.statusWord (s : State) : Word :=
  BitVec.ofBool s.idle ++ 0#17 ++ s.llen ++ 0#2 ++ s.lsel ++ s.err

end Sys2Proof.Machine
end

