-- ==== Sys2Proof/Machine/Operands.lean ====
section
/-! DEFINITION. Bits and numbers (20_memory.md R42-R44), descriptors and tables (30_encoding.md R60-R65, R68), the choice of
an alternative (40_codec.md R85) and the info word (41_table.md R102). -/

namespace Sys2Proof

/-! ### Bits and numbers -/

/-- The number a bit string denotes, its first bit least significant: the sum of b_i * 2^i (R42). -/
def bitsToNat : BitString → Nat
  | [] => 0
  | b :: bs => b.toNat + 2 * bitsToNat bs

/-- `PeekBits(n)`: the number in the first n bits of a stream (R42). -/
def peekBits (n : Nat) (bs : BitString) : Nat := bitsToNat (bs.take n)

/-- The bits `WriteBits(n, v)` appends: v[0], v[1], ..., v[n-1] (R43). -/
def bitsOfNat (n v : Nat) : BitString := (List.range n).map (fun i => v.testBit i)

/-- Byte j of the byte view of a stream: stream bit k is bit k mod 8 of byte k / 8 (R44); bits past the end are 0 (log 18). -/
def streamByte (bs : BitString) (j : Nat) : Byte := BitVec.ofNat 8 (peekBits 8 (bs.drop (8 * j)))

/-- The byte view of a stream, its last partial byte padded with 0 bits (R44, log 18). -/
def byteView (bs : BitString) : List Byte := (List.range ((bs.length + 7) / 8)).map (streamByte bs)

/-! ### Quads -/

/-- The member a 2-bit selector names. -/
def Quad.get {α : Type} (q : Quad α) (s : BitVec 2) : α :=
  if s = 0#2 then q.e0 else if s = 1#2 then q.e1 else if s = 2#2 then q.e2 else q.e3

/-- The quad with the member a 2-bit selector names replaced. -/
def Quad.set {α : Type} (q : Quad α) (s : BitVec 2) (x : α) : Quad α :=
  if s = 0#2 then { q with e0 := x } else if s = 1#2 then { q with e1 := x }
  else if s = 2#2 then { q with e2 := x } else { q with e3 := x }

/-! ### Descriptors -/

/-- The stored kind code (R61). -/
def Kind.code : Kind → BitVec 2
  | .val => 0b00#2
  | .bits => 0b01#2
  | .bitsOffset => 0b10#2

/-- The kind a code names; 0b11 is reserved (R61). -/
def Kind.ofCode (k : BitVec 2) : Option Kind :=
  if k = 0b00#2 then some .val else if k = 0b01#2 then some .bits
  else if k = 0b10#2 then some .bitsOffset else none

/-- `Legal(K, n, param)` (R62), the bound of the third clause compared exactly (R12). -/
def legal (k : BitVec 2) (n : BitVec 6) (param : Word) : Bool :=
  (k == 0b00#2 && n == 0#6)
    || (k == 0b01#2 && 1 ≤ n.toNat && n.toNat ≤ 32 && param == 0#32)
    || (k == 0b10#2 && 1 ≤ n.toNat && n.toNat ≤ 32 && param.toNat + 2 ^ n.toNat - 1 ≤ 2 ^ 32 - 1)

/-- The descriptor of a TBL.WR's fields, if they are legal (R62, R100). -/
def Desc.ofFields (k : BitVec 2) (n : BitVec 6) (param : Word) : Option Desc :=
  if legal k n param then (Kind.ofCode k).map (fun kd => ⟨kd, n, param⟩) else none

/-- A stored descriptor is legal (R23). -/
def Desc.isLegal (d : Desc) : Bool := legal d.kind.code d.n d.param

/-- width(d): 0 for VAL, n otherwise (R63). -/
def Desc.width (d : Desc) : Nat :=
  match d.kind with
  | .val => 0
  | .bits => d.n.toNat
  | .bitsOffset => d.n.toNat

/-- lo(d) (R63). -/
def Desc.lo (d : Desc) : Nat :=
  match d.kind with
  | .val => d.param.toNat
  | .bits => 0
  | .bitsOffset => d.param.toNat

/-- hi(d), exact (R63). -/
def Desc.hi (d : Desc) : Nat :=
  match d.kind with
  | .val => d.param.toNat
  | .bits => 2 ^ d.n.toNat - 1
  | .bitsOffset => d.param.toNat + 2 ^ d.n.toNat - 1

/-- v is in range(d): lo(d) ≤ v ≤ hi(d) (R63). -/
def Desc.inRange (d : Desc) (v : Word) : Bool := d.lo ≤ v.toNat && v.toNat ≤ d.hi

/-- The value of raw bits under an alternative (R68, R87): the literal for VAL, else raw + param. For a legal descriptor and
width(d) raw bits the sum is below 2^32 (R92); log 13 says what an illegal one, which no run stores, would give. -/
def Desc.value (d : Desc) (raw : Nat) : Word :=
  match d.kind with
  | .val => d.param
  | .bits => BitVec.ofNat 32 (raw + d.param.toNat)
  | .bitsOffset => BitVec.ofNat 32 (raw + d.param.toNat)

/-- The raw number ENC writes for v: v - param (R88). -/
def Desc.rawOf (d : Desc) (v : Word) : Nat := v.toNat - d.param.toNat

/-- `Info(e)` of a valid entry: bit 31, the kind code in [17:16], n in [15:10] (R102). -/
def Desc.info (d : Desc) : Word :=
  1#32 <<< 31 ||| d.kind.code.setWidth 32 <<< 16 ||| d.n.setWidth 32 <<< 10

/-! ### Tables -/

/-- The four descriptors of a ready table; none when some entry has valid = 0 (R64). -/
def Quad.ready? (T : Table) : Option (Quad Desc) :=
  match T with
  | ⟨some d0, some d1, some d2, some d3⟩ => some ⟨d0, d1, d2, d3⟩
  | _ => none

/-- The ranges of two descriptors do not meet. -/
def Desc.apart (d e : Desc) : Bool := d.hi < e.lo || e.hi < d.lo

/-- A ready table is disjoint (R65). The CIC does not check it (90_conflicts.md C1). -/
def Quad.disjoint (D : Quad Desc) : Bool :=
  D.e0.apart D.e1 && D.e0.apart D.e2 && D.e0.apart D.e3 && D.e1.apart D.e2 && D.e1.apart D.e3 && D.e2.apart D.e3

/-- The better of the best alternative so far and alternative s for v: s replaces it only if its range holds v and its
width is strictly less, so that a tie keeps the earlier (R85). -/
def betterAlt (D : Quad Desc) (v : Word) (best : Option (BitVec 2)) (s : BitVec 2) : Option (BitVec 2) :=
  if (D.get s).inRange v then
    match best with
    | none => some s
    | some b => if (D.get s).width < (D.get b).width then some s else some b
  else best

/-- `Choose(T, v)`: the narrowest alternative whose range holds v, ties to the lowest selector (R85). -/
def choose (D : Quad Desc) (v : Word) : Option (BitVec 2) :=
  [0#2, 1#2, 2#2, 3#2].foldl (betterAlt D v) none

/-- The bit string of a compressed integer: the selector, then the raw bits of its alternative (R66, R67). -/
def wireBits (D : Quad Desc) (sel : BitVec 2) (raw : Nat) : BitString :=
  bitsOfNat 2 sel.toNat ++ bitsOfNat (D.get sel).width raw

end Sys2Proof
end

