-- ==== Sys2Proof/Machine/Ops.lean ====
section
/-! DEFINITION. The named operations over the state: consuming command words, the queues and streams, the table memory
(20_memory.md R41-R43, R54; 41_table.md R103), raising an error and clearing it (60_exceptions.md R129, R131), and the error
gate every command passes (R130). -/

namespace Sys2Proof.Machine

/-! ### Command words -/

/-- The last word of a command leaves CMDQ; a 2-word command's header leaves PEND (R54). -/
def State.consume (f : Format) (s : State) : State :=
  { s with
    cmdq := s.cmdq.tail
    pend := match f with
      | .h => s.pend
      | .hp => none }

/-! ### Responses, streams, result fields -/

/-- Free slots of RSP (R29). -/
def State.freeSlots (s : State) : Nat := s.params.rspDepth - s.rsp.length

/-- `Push` of one or two words, in order (R13, R29). -/
def State.push (ws : List Word) (s : State) : State := { s with rsp := s.rsp ++ ws }

/-- `ReadBits`: the first n bits leave IN (R42). -/
def State.dropIn (n : Nat) (s : State) : State := { s with inBits := s.inBits.drop n }

/-- `WriteBits`: bits appended to OUT (R43). -/
def State.appendOut (bs : BitString) (s : State) : State := { s with outBits := s.outBits ++ bs }

/-- LSEL and LLEN of a successful DEC, ENC or SIZE: the selector, and 2 plus the width of the alternative used (R26). -/
def State.setResult (sel : BitVec 2) (w : Nat) (s : State) : State :=
  { s with lsel := sel, llen := BitVec.ofNat 6 (2 + w) }

/-- `FailInput()` (R87, R127): IN loses k of its bits, k free in [0, |IN|] (log 3). -/
def State.failInput (s : State) : State :=
  { s with
    inBits := s.inBits.drop (Config.inputLossDraw s.draws % (s.inBits.length + 1))
    draws := s.draws + 1 }

/-! ### The table memory -/

/-- NUM_TABLES, the number of tables the memory holds (R7, R21). -/
def State.numTables (s : State) : Nat := s.tbl.length

/-- TBL[t], none when t ≥ NUM_TABLES (R41). -/
def State.table? (s : State) (t : BitVec 8) : Option Table := s.tbl[t.toNat]?

/-- TBL[t] <- T. -/
def State.setTable (t : BitVec 8) (T : Table) (s : State) : State := { s with tbl := s.tbl.set t.toNat T }

/-- `CheckTable(t)` (R86): the descriptors of a ready table, or TINDEX, or TABLE_INVALID. -/
def State.checkTable (s : State) (t : BitVec 8) : Except ErrCode (Quad Desc) :=
  match s.table? t with
  | none => .error .tindex
  | some T =>
    match T.ready? with
    | none => .error .tableInvalid
    | some D => .ok D

/-! ### Errors -/

/-- Error entry: STATUS.ERR <- E (R129), and the model's fault mark is set (R133). -/
def State.raiseError (e : ErrCode) (s : State) : State := { s with err := e.code, faultMark := true }

/-- Error exit: STATUS.ERR <- 0 (R131); nothing is restored, and the fault mark stays (R133). -/
def State.clearError (s : State) : State := { s with err := 0#4 }

/-! ### How a command ends -/

/-- What a command that passed the error gate does: it completes in a state, raises an error (the state carries the input an
IN_EXHAUSTED loses, and is otherwise the old one), or holds (R54). -/
inductive Verdict where
  | done (t : State)
  | raise (e : ErrCode) (t : State)
  | hold

/-- The step of a command that passed the error gate: on success or error its words are consumed (R54, R129); a held command
"is not consumed and changes no state" (R54, log 4). -/
def commit (f : Format) (s : State) : Verdict → Host.Outcome State Fault Refusal
  | .done t => .next (t.consume f)
  | .raise e t => .next ((t.raiseError e).consume f)
  | .hold => .next s

/-- The error gate (R130): while ERR ≠ 0 the command is discarded with its words; else it runs. A reserved error code is
refused (I14, log 5). -/
def gated (f : Format) (s : State) (v : Verdict) : Host.Outcome State Fault Refusal :=
  if s.reservedErr then .refused .reservedErrorCode
  else if s.err ≠ 0#4 then .next (s.consume f)
  else commit f s v

end Sys2Proof.Machine
end

