-- ==== Sys2Proof/Machine/Codec.lean ====
section
/-! DEFINITION. The codec commands DEC, ENC and SIZE (40_codec.md R87-R89). -/

namespace Sys2Proof.Machine

/-- DEC finds too few bits in IN: with EOS = 1 it loses input and raises IN_EXHAUSTED, else it holds (R87). -/
def decStarved (s : State) : Verdict := if s.eos then .raise .inExhausted s.failInput else .hold

/-- DEC under a ready table, once the selector is known (R87). -/
def decSelected (D : Quad Desc) (sel : BitVec 2) (s : State) : Verdict :=
  if s.inBits.length < 2 + (D.get sel).width then decStarved s
  else if s.freeSlots < 1 then .hold
  else
    let raw := peekBits (D.get sel).width (s.inBits.drop 2)
    .done (((s.dropIn (2 + (D.get sel).width)).push [(D.get sel).value raw]).setResult sel (D.get sel).width)

/-- What DEC t does after the gate (R87). -/
def decVerdict (t : BitVec 8) (s : State) : Verdict :=
  match s.checkTable t with
  | .error e => .raise e s
  | .ok D =>
    if s.inBits.length < 2 then decStarved s
    else decSelected D (BitVec.ofNat 2 (peekBits 2 s.inBits)) s

/-- DEC: decode one compressed integer (R87). -/
def execDec (t : BitVec 8) (s : State) : Host.Outcome State Fault Refusal := gated .h s (decVerdict t s)

/-- What ENC t, v does after the gate (R88). -/
def encVerdict (t : BitVec 8) (v : Word) (s : State) : Verdict :=
  match s.checkTable t with
  | .error e => .raise e s
  | .ok D =>
    match choose D v with
    | none => .raise .noAlt s
    | some sel => .done ((s.appendOut (wireBits D sel ((D.get sel).rawOf v))).setResult sel (D.get sel).width)

/-- ENC: encode one value (R88). -/
def execEnc (t : BitVec 8) (v : Word) (s : State) : Host.Outcome State Fault Refusal := gated .hp s (encVerdict t v s)

/-- What SIZE t, v does after the gate (R89). -/
def sizeVerdict (t : BitVec 8) (v : Word) (s : State) : Verdict :=
  match s.checkTable t with
  | .error e => .raise e s
  | .ok D =>
    match choose D v with
    | none => .raise .noAlt s
    | some sel =>
      if s.freeSlots < 1 then .hold
      else .done ((s.push [BitVec.ofNat 32 (2 + (D.get sel).width)]).setResult sel (D.get sel).width)

/-- SIZE: measure the encoded length of one value (R89). -/
def execSize (t : BitVec 8) (v : Word) (s : State) : Host.Outcome State Fault Refusal := gated .hp s (sizeVerdict t v s)

end Sys2Proof.Machine
end

