-- ==== Sys2Proof/Machine/Control.lean ====
section
/-! DEFINITION. The control commands NOP and CLRERR (42_control.md R110, R111), and the command that a word which decodes to
nothing stands for (60_exceptions.md R122). -/

namespace Sys2Proof.Machine

/-- NOP: it is consumed and nothing else happens (R110). -/
def execNop (s : State) : Host.Outcome State Fault Refusal := gated .h s (.done s)

/-- CLRERR: STATUS.ERR <- 0 (R111). It passes the error gate (R130); only a reserved code is refused (I14, log 5). -/
def execClrerr (s : State) : Host.Outcome State Fault Refusal :=
  if s.reservedErr then .refused .reservedErrorCode else .next (s.clearError.consume .h)

/-- A header that is no command raises ILLEGAL and consumes its Len words (R122); the error gate comes first (R130). -/
def execIllegal (f : Format) (s : State) : Host.Outcome State Fault Refusal := gated f s (.raise .illegal s)

end Sys2Proof.Machine
end

