-- ==== Sys2Proof/Machine/TableCmds.lean ====
section
/-! DEFINITION. The table commands TBL.WR and TBL.RD (41_table.md R100-R102). -/

namespace Sys2Proof.Machine

/-- What TBL.WR t, s, K, n, P does after the gate (R100). -/
def tblWrVerdict (t : BitVec 8) (sel k : BitVec 2) (n : BitVec 6) (p : Word) (s : State) : Verdict :=
  match s.table? t with
  | none => .raise .tindex s
  | some T =>
    match Desc.ofFields k n p with
    | none => .raise .desc s
    | some d => .done (s.setTable t (T.set sel (some d)))

/-- TBL.WR: write one selector-table entry (R100). -/
def execTblWr (t : BitVec 8) (sel k : BitVec 2) (n : BitVec 6) (p : Word) (s : State) :
    Host.Outcome State Fault Refusal :=
  gated .hp s (tblWrVerdict t sel k n p s)

/-- The two words TBL.RD pushes for an entry: the info word and the param, or two zero words for an invalid one (R101). -/
def entryWords (e : Entry) : List Word :=
  match e with
  | some d => [d.info, d.param]
  | none => [0#32, 0#32]

/-- What TBL.RD t, s does after the gate (R101). -/
def tblRdVerdict (t : BitVec 8) (sel : BitVec 2) (s : State) : Verdict :=
  match s.table? t with
  | none => .raise .tindex s
  | some T => if s.freeSlots < 2 then .hold else .done (s.push (entryWords (T.get sel)))

/-- TBL.RD: read one selector-table entry to RSP (R101). -/
def execTblRd (t : BitVec 8) (sel : BitVec 2) (s : State) : Host.Outcome State Fault Refusal :=
  gated .h s (tblRdVerdict t sel s)

end Sys2Proof.Machine
end

