-- ==== Sys2Proof/Machine/Dispatch.lean ====
section
/-! DEFINITION. The dispatch of a decoded command to its meaning, one arm per row of the opcode map (30_encoding.md R74). -/

namespace Sys2Proof.Machine

def exec (i : Instr) (s : State) : Host.Outcome State Fault Refusal :=
  match i with
  | .nop => Sys2Proof.Machine.execNop s
  | .dec t => Sys2Proof.Machine.execDec t s
  | .enc t v => Sys2Proof.Machine.execEnc t v s
  | .size t v => Sys2Proof.Machine.execSize t v s
  | .tblWr t sel k n p => Sys2Proof.Machine.execTblWr t sel k n p s
  | .tblRd t sel => Sys2Proof.Machine.execTblRd t sel s
  | .clrerr => Sys2Proof.Machine.execClrerr s

end Sys2Proof.Machine
end

