-- ==== Sys2Proof/Machine/Fetch.lean ====
section
/-! DEFINITION. The CIC's step (20_memory.md R54): framing a 2-word header, running a command, or having no step; and placing
a command's words where that step takes them from. -/

namespace Sys2Proof.Machine

/-- `Exec1(h)` and `Exec2(h, p)` (R54): the command the words decode to runs; words that decode to none raise ILLEGAL. -/
def runCommand (w p : Word) (s : State) : Host.Outcome State Fault Refusal :=
  match decode w p with
  | .ok i => exec i s
  | .error _ => execIllegal (formatOf w) s

/-- The framing step: a 2-word header moves from CMDQ to PEND (R54). -/
def frameHeader (w : Word) (rest : List Word) (s : State) : State := { s with pend := some w, cmdq := rest }

/-- The CIC's step (R54). Where the CIC has no step (idle, or waiting for a payload) its turn leaves the state as it is, as
does the turn of a held command (log 4). -/
def cicStep (s : State) : Host.Outcome State Fault Refusal :=
  match s.pend, s.cmdq with
  | none, [] => .next s
  | none, w :: rest => if wordLen w = 2 then .next (frameHeader w rest s) else runCommand w 0#32 s
  | some _, [] => .next s
  | some w, p :: _ => runCommand w p s

/-- The CIC has a step (R54): its turn does not leave the state as it is. -/
def State.hasStep (s : State) : Bool :=
  match cicStep s with
  | .next t => t != s
  | .fault _ => true
  | .refused _ => true

/-- A command is held (R54): a whole command stands at the head of CMDQ and it has no step yet. -/
def State.held (s : State) : Bool := !s.cmdq.isEmpty && !s.hasStep

/-- The state with the words of one command placed so that the CIC's next turn runs it, and that turn next: a 1-word command
at the head of CMDQ with PEND = none, a 2-word command with its header in PEND and its payload at the head of CMDQ (R54,
log 10). -/
def State.placeCommand (w p : Word) (s : State) : State :=
  match formatOf w with
  | .h => { s with pend := none, cmdq := w :: s.cmdq, agenda := .cic :: s.agenda }
  | .hp => { s with pend := some w, cmdq := p :: s.cmdq, agenda := .cic :: s.agenda }

end Sys2Proof.Machine
end

