-- ==== Sys2Proof/Machine/HostPort.lean ====
section
/-! DEFINITION. The host's actions (20_memory.md R55): commands, input bits, responses, output bits, STATUS and reset. An action
whose precondition fails has no move, and the turn faults by name (log 7). -/

namespace Sys2Proof.Machine

/-- What an action returned is added to what the host has seen (R159, log 8). -/
def State.saw (r : HostReturn) (s : State) : State := { s with seen := s.seen ++ [r] }

/-- PushCmd(w): CMDQ <- CMDQ ++ [w] (R55). -/
def State.pushCmd (w : Word) (s : State) : State := { s with cmdq := s.cmdq ++ [w] }

/-- PushBits(bs): IN <- IN ++ bs (R55). -/
def State.pushBits (bs : BitString) (s : State) : State := { s with inBits := s.inBits ++ bs }

/-- SetEOS: EOS <- 1 (R55). -/
def State.setEos (s : State) : State := { s with eos := true }

/-- FlushIn: IN <- [], EOS <- 0 (R55). -/
def State.flushIn (s : State) : State := { s with inBits := [], eos := false }

/-- RSP loses its head (R55). -/
def State.tailRsp (s : State) : State := { s with rsp := s.rsp.tail }

/-- OUT loses its first k bits (R55). -/
def State.dropOut (k : Nat) (s : State) : State := { s with outBits := s.outBits.drop k }

/-- Reset (R145): every piece of R37's state takes its reset value; the parameters are the machine's, and the model's fault
mark, draw counter, agenda and host record stay (log 9). -/
def State.resetCic (s : State) : State :=
  { State.resetWith s.params with faultMark := s.faultMark, draws := s.draws, agenda := s.agenda, seen := s.seen }

/-- PopRsp (R55): precondition RSP ≠ []; returns head(RSP). -/
def hostPopRsp (s : State) : Host.Outcome State Fault Refusal :=
  match s.rsp with
  | [] => .fault .popRspEmpty
  | w :: _ => .next (s.tailRsp.saw (.popped w))

/-- PushBits (R55): precondition EOS = 0. -/
def hostPushBits (bs : BitString) (s : State) : Host.Outcome State Fault Refusal :=
  if s.eos then .fault .pushBitsAfterEos else .next (s.pushBits bs)

/-- TakeOut(k) (R55): precondition k ≤ |OUT|; returns the first k bits of OUT. -/
def hostTakeOut (k : Nat) (s : State) : Host.Outcome State Fault Refusal :=
  if s.outBits.length < k then .fault .takeOutTooMany else .next ((s.dropOut k).saw (.took (s.outBits.take k)))

/-- ReadStatus (R28, R55): returns STATUS and changes nothing of the CIC. A reserved error code is refused (I14, log 5). -/
def hostReadStatus (s : State) : Host.Outcome State Fault Refusal :=
  if s.reservedErr then .refused .reservedErrorCode else .next (s.saw (.status s.statusWord))

/-- One atomic action of the host (R55). -/
def hostAct (a : HostAction) (s : State) : Host.Outcome State Fault Refusal :=
  match a with
  | .pushCmd w => .next (s.pushCmd w)
  | .pushBits bs => hostPushBits bs s
  | .setEos => .next s.setEos
  | .flushIn => .next s.flushIn
  | .popRsp => hostPopRsp s
  | .takeOut k => hostTakeOut k s
  | .readStatus => hostReadStatus s
  | .reset => .next s.resetCic

end Sys2Proof.Machine
end

