-- ==== Sys2Proof/Machine/Step.lean ====
section
/-! DEFINITION. One step of the machine: the turn the agenda names (20_memory.md R56), the CIC's (R54) or the host's (R55). -/

namespace Sys2Proof.Machine

/-- The state whose agenda is what follows the first turn. -/
def State.withAgenda (as : List Turn) (s : State) : State := { s with agenda := as }

/-- One step: the first turn of the agenda, and the CIC's turn once the agenda is empty (R54-R56, log 6). -/
def step (s : State) : Host.Outcome State Fault Refusal :=
  match s.agenda with
  | [] => cicStep s
  | .cic :: rest => cicStep (s.withAgenda rest)
  | .host a :: rest => hostAct a (s.withAgenda rest)

/-- The state with the instruction whose bits are `w` (the lowest `nbits` of them) placed where the next step takes it. -/
def State.withFetchWord (s : State) (nbits w : Nat) : State :=
  s.placeCommand (tableHeader nbits w) (tablePayload nbits w)

end Sys2Proof.Machine
end

