-- ==== Sys2Proof/Safety.lean ====
section
/-! DEFINITION. What claims are stated with: the well-formed states (the spec's own invariants), the end of a run and its
observation (70_reset_and_hazards.md R159), and a run without a recorded error (60_exceptions.md R133). -/

namespace Sys2Proof

/-- Every valid entry of a table memory is legal (R23). -/
def tablesLegal (ts : List Table) : Prop :=
  ∀ T ∈ ts, ∀ sel d, T.get sel = some d → d.isLegal = true

/-- The parameters are in the bounds the spec gives them (R7, R8, R9). -/
structure Params.WF (p : Params) : Prop where
  tables_pos : 1 ≤ p.numTables
  tables_le : p.numTables ≤ 256
  depth : 2 ≤ p.rspDepth
  init_legal : tablesLegal p.tableInit

end Sys2Proof

namespace Sys2Proof.Machine

/-- A state that obeys the spec's invariants. -/
structure State.WF (s : State) : Prop where
  /-- The parameters are legal (R7-R9). -/
  params : s.params.WF
  /-- The table memory holds NUM_TABLES tables (R21). -/
  tables : s.tbl.length = s.params.numTables
  /-- Every valid entry is legal (R23). -/
  legal : tablesLegal s.tbl
  /-- RSP is within its capacity (R20, R29). -/
  rsp : s.rsp.length ≤ s.params.rspDepth
  /-- ERR is no reserved code (R121). -/
  err : s.err.toNat ≤ 6
  /-- An error in STATUS has set the fault mark (R133). -/
  mark : s.err ≠ 0#4 → s.faultMark = true
  /-- PEND holds the header of a 2-word command (R30). -/
  pend : ∀ w, s.pend = some w → wordLen w = 2
  /-- LLEN is 0, with LSEL 0, or the length of a compressed integer, 2 to 34 (R24). -/
  llen : (s.llen = 0#6 ∧ s.lsel = 0#2) ∨ (2 ≤ s.llen.toNat ∧ s.llen.toNat ≤ 34)

/-- TBL[t] is the ready table with the descriptors D (R64). -/
def State.readyAt (s : State) (t : BitVec 8) (D : Quad Desc) : Prop :=
  ∃ T, s.table? t = some T ∧ ∀ sel, T.get sel = some (D.get sel)

/-- TBL[t][s] in a table memory, none where there is no table t (R21, R41). -/
def entryAt (ts : List Table) (t : BitVec 8) (sel : BitVec 2) : Option Entry :=
  (ts[t.toNat]?).map (fun T => T.get sel)

/-- IN holds fewer bits than the compressed integer at its front needs: fewer than 2, or fewer than 2 + w once the selector
is known (R127). -/
def State.inputShort (s : State) (D : Quad Desc) : Prop :=
  s.inBits.length < 2 ∨ s.inBits.length < 2 + (D.get (BitVec.ofNat 2 (peekBits 2 s.inBits))).width

/-- The command waits, by the list of R54: DEC for input bits while EOS = 0, or for a free RSP slot; SIZE for a free RSP slot;
TBL.RD for two. -/
def State.waits (s : State) : Instr → Prop
  | .nop => False
  | .dec t => ∃ D, s.readyAt t D ∧
      ((s.inputShort D ∧ s.eos = false) ∨ (¬ s.inputShort D ∧ s.params.rspDepth ≤ s.rsp.length))
  | .enc _ _ => False
  | .size t v => ∃ D sel, s.readyAt t D ∧ (D.get sel).inRange v = true ∧ s.params.rspDepth ≤ s.rsp.length
  | .tblWr _ _ _ _ _ => False
  | .tblRd t _ => t.toNat < s.numTables ∧ s.params.rspDepth < s.rsp.length + 2
  | .clrerr => False

/-- A header that is no command (R122): its OP is 0x6 to 0xE, or a field that its opcode does not use is non-zero. -/
def illegalHeader (w : Word) : Prop :=
  (6 ≤ (w.extractLsb' 28 4).toNat ∧ (w.extractLsb' 28 4).toNat ≤ 14)
    ∨ (w.extractLsb' 28 4 = 0#4 ∧ w.extractLsb' 0 28 ≠ 0#28)
    ∨ (w.extractLsb' 28 4 = 1#4 ∧ w.extractLsb' 0 20 ≠ 0#20)
    ∨ (w.extractLsb' 28 4 = 2#4 ∧ w.extractLsb' 0 20 ≠ 0#20)
    ∨ (w.extractLsb' 28 4 = 3#4 ∧ w.extractLsb' 0 20 ≠ 0#20)
    ∨ (w.extractLsb' 28 4 = 4#4 ∧ w.extractLsb' 0 10 ≠ 0#10)
    ∨ (w.extractLsb' 28 4 = 5#4 ∧ w.extractLsb' 0 18 ≠ 0#18)
    ∨ (w.extractLsb' 28 4 = 15#4 ∧ w.extractLsb' 0 28 ≠ 0#28)

/-- A run has ended: the host has performed every action and the CIC has no step (R159). DESIGN CHOICE, log 23: R159 has no turns
that change nothing; here the agenda must be empty, so a CIC without a step counts as ended only once the CIC turns still
listed in the agenda are taken, each of which leaves everything but the agenda as it is. -/
def State.ended (s : State) : Bool := s.agenda.isEmpty && !s.hasStep

/-- A run has ended complete: IDLE = 1 (R159), with the end as in `State.ended` (log 23). -/
def State.complete (s : State) : Bool := s.ended && s.idle

/-- A run has ended stuck: IDLE = 0, something still waits (R159), with the end as in `State.ended` (log 23). -/
def State.stuck (s : State) : Bool := s.ended && !s.idle

/-- The observation of a complete run (R159): (TBL, STATUS, RSP, OUT, IN, EOS), and what the host popped and took. -/
structure Observation where
  tbl : List Table
  status : Word
  rsp : List Word
  outBits : BitString
  inBits : BitString
  eos : Bool
  popped : List Word
  taken : BitString
  deriving DecidableEq, Repr

/-- The words the host popped, in order (R159). -/
def poppedWords : List HostReturn → List Word
  | [] => []
  | .popped w :: rs => w :: poppedWords rs
  | .took _ :: rs => poppedWords rs
  | .status _ :: rs => poppedWords rs

/-- The bits the host took, in order (R159). -/
def takenBits : List HostReturn → BitString
  | [] => []
  | .popped _ :: rs => takenBits rs
  | .took bs :: rs => bs ++ takenBits rs
  | .status _ :: rs => takenBits rs

/-- What a complete run shows (R159). -/
def State.observe (s : State) : Observation where
  tbl := s.tbl
  status := s.statusWord
  rsp := s.rsp
  outBits := s.outBits
  inBits := s.inBits
  eos := s.eos
  popped := poppedWords s.seen
  taken := takenBits s.seen

/-- A safe run so far: no error has ever been raised (R133). -/
def State.safe (s : State) : Bool := !s.faultMark

end Sys2Proof.Machine
end

