-- ==== Sys2Proof/Certificates/Slice0/Obligations.lean ====
section
/-! DEFINITION. The statements for the provers: what the numbered rules of the spec say the CIC does. Where a next state is
given as an update of the old one, every field not named is unchanged: the equation is the command's frame as well. -/

open Sys2Proof Sys2Proof.Machine

/-! ### Encoding -/

/-- Encoding, then decoding, gives every command back with all its operands, whatever words follow (R71, R74-R76). -/
def Obligations.DecodingAnEncodedCommandGivesItBack : Prop :=
  ∀ (i : Instr) (rest : List Word), decodeWords (encode i ++ rest) = .ok (i, rest)

/-- Words that decode to a command are that command's encoding: no word has two meanings and no bit is ignored (R75, R79). -/
def Obligations.DecodedWordsAreTheEncodingOfTheCommand : Prop :=
  ∀ (ws : List Word) (i : Instr) (rest : List Word), decodeWords ws = .ok (i, rest) → ws = encode i ++ rest

/-- R79 with the masks of R75 and the fields of R71: when the decoder answers each command, and when it rejects a word. -/
def Obligations.DecoderFollowsTheOpcodeMap : Prop :=
  ∀ w p : Word,
    (decode w p = .ok .nop ↔ w &&& 0xFFFFFFFF#32 = 0x00000000#32) ∧
    (∀ t, decode w p = .ok (.dec t) ↔ w &&& 0xF00FFFFF#32 = 0x10000000#32 ∧ t = w.extractLsb' 20 8) ∧
    (∀ t v, decode w p = .ok (.enc t v) ↔ w &&& 0xF00FFFFF#32 = 0x20000000#32 ∧ t = w.extractLsb' 20 8 ∧ v = p) ∧
    (∀ t v, decode w p = .ok (.size t v) ↔ w &&& 0xF00FFFFF#32 = 0x30000000#32 ∧ t = w.extractLsb' 20 8 ∧ v = p) ∧
    (∀ t s k n v, decode w p = .ok (.tblWr t s k n v) ↔ w &&& 0xF00003FF#32 = 0x40000000#32 ∧
      t = w.extractLsb' 20 8 ∧ s = w.extractLsb' 18 2 ∧ k = w.extractLsb' 16 2 ∧ n = w.extractLsb' 10 6 ∧ v = p) ∧
    (∀ t s, decode w p = .ok (.tblRd t s) ↔ w &&& 0xF003FFFF#32 = 0x50000000#32 ∧
      t = w.extractLsb' 20 8 ∧ s = w.extractLsb' 18 2) ∧
    (decode w p = .ok .clrerr ↔ w &&& 0xFFFFFFFF#32 = 0xF0000000#32) ∧
    ((∃ e, decode w p = .error e) ↔ illegalHeader w)

/-- Words written out from the encodings of the spec (R80, R100, R101, 95_test_vectors.md 2.5) decode to what they stand
for. -/
def Obligations.WordsWrittenFromTheSpecDecode : Prop :=
  decode 0x00000000#32 0#32 = .ok .nop ∧
  decode 0x1FF00000#32 0#32 = .ok (.dec 255#8) ∧
  decode 0x20100000#32 0x00000430#32 = .ok (.enc 1#8 1072#32) ∧
  decode 0x30100000#32 0x0000042F#32 = .ok (.size 1#8 1071#32) ∧
  decode 0x400A1000#32 0x00000002#32 = .ok (.tblWr 0#8 2#2 2#2 4#6 2#32) ∧
  decode 0x501C0000#32 0#32 = .ok (.tblRd 1#8 3#2) ∧
  decode 0xF0000000#32 0#32 = .ok .clrerr ∧
  decode 0x60000000#32 0#32 = .error .reservedOp ∧
  decode 0x10000400#32 0#32 = .error .nonzeroUnused

/-- The assembler's table of R80, its refusals, and TBL.SET of R81 as four TBL.WR in selector order, for source lines as
abstract syntax (log 14). -/
def Obligations.AssemblerEmitsTheSyntaxTable : Prop :=
  (AsmLine.assemble .nop = some [0x00000000#32] ∧ AsmLine.assemble .clrerr = some [0xF0000000#32]) ∧
  (∀ t v : Nat, t ≤ 255 → v < 2 ^ 32 →
    AsmLine.assemble (.dec t) = some [0x10000000#32 ||| BitVec.ofNat 32 t <<< 20] ∧
    AsmLine.assemble (.enc t v) = some [0x20000000#32 ||| BitVec.ofNat 32 t <<< 20, BitVec.ofNat 32 v] ∧
    AsmLine.assemble (.size t v) = some [0x30000000#32 ||| BitVec.ofNat 32 t <<< 20, BitVec.ofNat 32 v] ∧
    AsmLine.assemble (.word v) = some [BitVec.ofNat 32 v]) ∧
  (∀ t s n v : Nat, t ≤ 255 → s ≤ 3 → n ≤ 63 → v < 2 ^ 32 →
    AsmLine.assemble (.tblWr t s (.val v)) =
      some [0x40000000#32 ||| BitVec.ofNat 32 t <<< 20 ||| BitVec.ofNat 32 s <<< 18, BitVec.ofNat 32 v] ∧
    AsmLine.assemble (.tblWr t s (.bits n)) =
      some [0x40000000#32 ||| BitVec.ofNat 32 t <<< 20 ||| BitVec.ofNat 32 s <<< 18 ||| 1#32 <<< 16
        ||| BitVec.ofNat 32 n <<< 10, 0#32] ∧
    AsmLine.assemble (.tblWr t s (.bitsOff n v)) =
      some [0x40000000#32 ||| BitVec.ofNat 32 t <<< 20 ||| BitVec.ofNat 32 s <<< 18 ||| 2#32 <<< 16
        ||| BitVec.ofNat 32 n <<< 10, BitVec.ofNat 32 v] ∧
    AsmLine.assemble (.tblRd t s) =
      some [0x50000000#32 ||| BitVec.ofNat 32 t <<< 20 ||| BitVec.ofNat 32 s <<< 18]) ∧
  (∀ t v : Nat, 255 < t ∨ 2 ^ 32 ≤ v →
    AsmLine.assemble (.enc t v) = none ∧ AsmLine.assemble (.size t v) = none) ∧
  (∀ (t s : Nat) (d : AsmDesc), 255 < t ∨ 3 < s →
    AsmLine.assemble (.tblWr t s d) = none ∧ AsmLine.assemble (.tblRd t s) = none) ∧
  (∀ t s n v : Nat, 63 < n ∨ 2 ^ 32 ≤ v → AsmLine.assemble (.tblWr t s (.bitsOff n v)) = none) ∧
  (∀ t s n : Nat, 63 < n → AsmLine.assemble (.tblWr t s (.bits n)) = none) ∧
  (∀ t s v : Nat, 2 ^ 32 ≤ v → AsmLine.assemble (.tblWr t s (.val v)) = none ∧ AsmLine.assemble (.word v) = none) ∧
  (∀ t : Nat, 255 < t → AsmLine.assemble (.dec t) = none) ∧
  (∀ (t : Nat) (d0 d1 d2 d3 : AsmDesc), AsmLine.assemble (.tblSet t d0 d1 d2 d3) =
    (do
      let w0 ← AsmLine.assemble (.tblWr t 0 d0)
      let w1 ← AsmLine.assemble (.tblWr t 1 d1)
      let w2 ← AsmLine.assemble (.tblWr t 2 d2)
      let w3 ← AsmLine.assemble (.tblWr t 3 d3)
      pure (w0 ++ w1 ++ w2 ++ w3)))

/-! ### Bits, descriptors and the choice of an alternative -/

/-- R42: PeekBits(n) of IN is the sum of b_i * 2^i over its first n bits, the first bit least significant, and reading takes
exactly those n bits off the head of IN; with n = 0 the value is 0 and nothing is consumed. -/
def Obligations.PeekedBitsAreTheirSum : Prop :=
  ∀ (n : Nat) (s : State), n ≤ s.inBits.length →
    peekBits n s.inBits = ∑ i ∈ Finset.range n, (s.inBits.getD i false).toNat * 2 ^ i ∧
    (∃ bs, bs.length = n ∧ s.inBits = bs ++ (s.dropIn n).inBits ∧ s.dropIn n = { s with inBits := (s.dropIn n).inBits }) ∧
    (n = 0 → peekBits n s.inBits = 0 ∧ s.dropIn n = s)

/-- R43: WriteBits(n, v) appends the n bits v[0], ..., v[n-1] to OUT and changes nothing else; and ReadBits(n) of them, whatever
follows, returns v and leaves what follows. -/
def Obligations.WrittenBitsReadBack : Prop :=
  ∀ (n v : Nat) (s : State) (rest : BitString), v < 2 ^ n →
    s.appendOut (bitsOfNat n v) = { s with outBits := s.outBits ++ bitsOfNat n v } ∧
    (bitsOfNat n v).length = n ∧ (∀ i, i < n → (bitsOfNat n v)[i]? = some (v.testBit i)) ∧
    peekBits n (bitsOfNat n v ++ rest) = v ∧ (bitsOfNat n v ++ rest).drop n = rest

/-- R44: the byte view puts stream bit k at bit k mod 8 of byte k / 8, in as few bytes as hold the stream. (What fills the last
byte is the model's choice, log 18; the statement does not say.) -/
def Obligations.ByteViewPlacesEveryBit : Prop :=
  ∀ bs : BitString, (byteView bs).length = (bs.length + 7) / 8 ∧
    ∀ k, k < bs.length → ((byteView bs)[k / 8]?).map (fun b => b.getLsbD (k % 8)) = bs[k]?

/-- R63 for legal descriptors: width, the range's ends, its 2^width members, and "hi(d) ≤ 2^32 - 1 for every legal d". -/
def Obligations.LegalDescriptorHasItsWidthAndRange : Prop :=
  ∀ d : Desc, d.isLegal = true →
    (d.kind = .val → d.width = 0 ∧ d.lo = d.param.toNat ∧ d.hi = d.param.toNat) ∧
    (d.kind = .bits → d.width = d.n.toNat ∧ d.lo = 0 ∧ d.hi = 2 ^ d.n.toNat - 1) ∧
    (d.kind = .bitsOffset → d.width = d.n.toNat ∧ d.lo = d.param.toNat ∧ d.hi = d.param.toNat + 2 ^ d.n.toNat - 1) ∧
    (∀ v : Word, d.inRange v = true ↔ d.lo ≤ v.toNat ∧ v.toNat ≤ d.hi) ∧
    d.hi + 1 = d.lo + 2 ^ d.width ∧ d.hi ≤ 2 ^ 32 - 1

/-- R92, the sums: under a legal descriptor DEC's raw + param is exact and in range, and ENC's v - param of a value in range
does not borrow and fits the raw field. -/
def Obligations.CodecArithmeticIsExact : Prop :=
  ∀ d : Desc, d.isLegal = true →
    (∀ raw : Nat, raw < 2 ^ d.width →
      (d.value raw).toNat = raw + d.param.toNat ∧ d.lo ≤ (d.value raw).toNat ∧ (d.value raw).toNat ≤ d.hi) ∧
    (∀ v : Word, d.inRange v = true → d.param.toNat ≤ v.toNat ∧ d.rawOf v = v.toNat - d.param.toNat ∧
      d.rawOf v < 2 ^ d.width ∧ d.value (d.rawOf v) = v)

/-- R85: Choose answers the selector that minimises (width, selector) among the alternatives whose range holds v, and none
exactly when there is no such alternative. -/
def Obligations.ChoosePicksNarrowestThenEarliest : Prop :=
  ∀ (D : Quad Desc) (v : Word),
    (choose D v = none ↔ ∀ sel, (D.get sel).inRange v = false) ∧
    (∀ sel, choose D v = some sel ↔ (D.get sel).inRange v = true ∧
      ∀ sel', (D.get sel').inRange v = true →
        (D.get sel).width < (D.get sel').width ∨ ((D.get sel).width = (D.get sel').width ∧ sel.toNat ≤ sel'.toNat))

/-- R102: the info word is bit 31, the kind code times 2^16 and n times 2^10, all other bits 0; and its value for each kind of a
legal descriptor. -/
def Obligations.InfoWordHoldsKindAndWidth : Prop :=
  ∀ d : Desc, d.info.toNat = 2 ^ 31 + d.kind.code.toNat * 2 ^ 16 + d.n.toNat * 2 ^ 10 ∧
    (d.isLegal = true → d.kind = .val → d.info = 0x80000000#32) ∧
    (d.kind = .bits → d.info = 0x80010000#32 ||| d.n.setWidth 32 <<< 10) ∧
    (d.kind = .bitsOffset → d.info = 0x80020000#32 ||| d.n.setWidth 32 <<< 10)

/-- R24: the fields of the STATUS word, its reserved bits 0, and bit 31 as R27 computes it. -/
def Obligations.StatusWordLayout : Prop :=
  ∀ s : State,
    s.statusWord.extractLsb' 0 4 = s.err ∧ s.statusWord.extractLsb' 4 2 = s.lsel ∧
    s.statusWord.extractLsb' 6 2 = 0#2 ∧ s.statusWord.extractLsb' 8 6 = s.llen ∧
    s.statusWord.extractLsb' 14 17 = 0#17 ∧
    (s.statusWord.extractLsb' 31 1 = 1#1 ↔ s.cmdq = [] ∧ s.pend = none) ∧
    (s.errO = true ↔ s.err ≠ 0#4)

/-! ### The step -/

/-- R54: on the CIC's turn the words of CMDQ and PEND become a framing step or the decoded command's meaning; with no word to
take the CIC has no step and its turn changes nothing (the model's choice, log 4). On the host's turn the host's action
runs. The turn is the agenda's first, and the CIC's when the agenda is empty (the model's choice, log 6). -/
def Obligations.StepRunsTheDecodedCommand : Prop :=
  (∀ s s0 : State, (s.agenda = [] ∧ s0 = s) ∨ (∃ as, s.agenda = .cic :: as ∧ s0 = { s with agenda := as }) →
    (∀ w rest i, s.pend = none → s.cmdq = w :: rest → w.extractLsb' 28 4 ∉ [2#4, 3#4, 4#4] →
      decode w 0#32 = .ok i → step s = exec i s0) ∧
    (∀ w rest, s.pend = none → s.cmdq = w :: rest → w.extractLsb' 28 4 ∈ [2#4, 3#4, 4#4] →
      step s = .next { s0 with pend := some w, cmdq := rest }) ∧
    (∀ w p rest i, s.pend = some w → s.cmdq = p :: rest → decode w p = .ok i → step s = exec i s0) ∧
    (s.cmdq = [] → step s = .next s0)) ∧
  (∀ (s : State) (a : HostAction) (as : List Turn), s.agenda = .host a :: as →
    step s = hostAct a { s with agenda := as })

/-- R122 with R73 and R129: a header that is no command raises ILLEGAL before every other check and consumes its Len words. -/
def Obligations.IllegalHeaderRaisesIllegal : Prop :=
  ∀ s : State, s.err = 0#4 →
    (∀ w rest, illegalHeader w → w.extractLsb' 28 4 ∉ [2#4, 3#4, 4#4] → s.pend = none → s.cmdq = w :: rest →
      cicStep s = .next { s with err := 1#4, faultMark := true, cmdq := rest }) ∧
    (∀ w p rest, illegalHeader w → w.extractLsb' 28 4 ∈ [2#4, 3#4, 4#4] → s.pend = some w → s.cmdq = p :: rest →
      cicStep s = .next { s with err := 1#4, faultMark := true, pend := none, cmdq := rest })

/-- R130: while ERR holds an error, every command but the word 0xF0000000 is discarded with its Len words and changes nothing;
that word clears ERR. -/
def Obligations.DiscardedCommandOnlyLosesItsWords : Prop :=
  ∀ s : State, s.err ≠ 0#4 → s.err.toNat ≤ 6 →
    (∀ w rest, w.extractLsb' 28 4 ∉ [2#4, 3#4, 4#4] → w ≠ 0xF0000000#32 → s.pend = none → s.cmdq = w :: rest →
      cicStep s = .next { s with cmdq := rest }) ∧
    (∀ w rest, w.extractLsb' 28 4 ∈ [2#4, 3#4, 4#4] → s.pend = none → s.cmdq = w :: rest →
      cicStep s = .next { s with pend := some w, cmdq := rest }) ∧
    (∀ w p rest, w.extractLsb' 28 4 ∈ [2#4, 3#4, 4#4] → s.pend = some w → s.cmdq = p :: rest →
      cicStep s = .next { s with pend := none, cmdq := rest }) ∧
    (∀ rest, s.pend = none → s.cmdq = 0xF0000000#32 :: rest →
      cicStep s = .next { s with err := 0#4, cmdq := rest })

/-- 93_implementation_defined.md I14: every command is refused in a state whose ERR holds a reserved code, 7 to 15. -/
def Obligations.ReservedErrorCodeIsRefused : Prop :=
  ∀ (i : Instr) (s : State), 7 ≤ s.err.toNat → exec i s = .refused .reservedErrorCode

/-- R54, "A command holds when its rule says hold": with ERR = 0 and a word to consume, a command leaves the state as it is
exactly when it waits for input bits or for response slots. -/
def Obligations.CommandHoldsExactlyWhenItWaits : Prop :=
  ∀ (i : Instr) (s : State), s.err = 0#4 → s.cmdq ≠ [] →
    (exec i s = .next s ↔ s.waits i)

/-- R27: IDLE is 1 exactly when CMDQ is empty, PEND is none and no command is held; a command that waits for input bits, for a
response slot or for its payload keeps it 0. -/
def Obligations.IdleMeansNothingQueuedOrHeld : Prop :=
  ∀ s : State,
    (s.idle = true ↔ s.cmdq = [] ∧ s.pend = none ∧ s.held = false) ∧
    (s.held = true → s.idle = false) ∧ (s.pend ≠ none → s.idle = false)

/-- R159: a run that has ended is complete when nothing is queued, and stuck when a header waits for its payload or a command is
held. That a run has not ended while the agenda still lists turns, be they the CIC's alone and change nothing, is the model's
choice (DESIGN CHOICE, logs 6, 23). -/
def Obligations.EndedRunIsCompleteOrStuck : Prop :=
  ∀ s : State,
    (s.complete = true ↔ s.agenda = [] ∧ s.cmdq = [] ∧ s.pend = none) ∧
    (s.stuck = true ↔ s.agenda = [] ∧ ((s.cmdq = [] ∧ s.pend ≠ none) ∨ s.held = true))

/-- The instruction that `decodeTableWord` reads from a word is the one the next step runs when that word is placed (the model's
load, log 10): from the same state but with the header in front of CMDQ and no header in PEND (format H), or with the header
in PEND and the payload in front of CMDQ (format HP). -/
def Obligations.PlacedCommandRunsOnTheNextStep : Prop :=
  ∀ (s : State) (nbits w : Nat) (i : Instr), decodeTableWord nbits w = some i →
    (formatOf (tableHeader nbits w) = .h → step (s.withFetchWord nbits w) =
      exec i { s with pend := none, cmdq := tableHeader nbits w :: s.cmdq }) ∧
    (formatOf (tableHeader nbits w) = .hp → step (s.withFetchWord nbits w) =
      exec i { s with pend := some (tableHeader nbits w), cmdq := tablePayload nbits w :: s.cmdq })

/-! ### Control commands -/

/-- R110: NOP consumes one word and changes nothing else, discarded or not. -/
def Obligations.NopOnlyConsumesItsWord : Prop :=
  ∀ s : State, s.err.toNat ≤ 6 → exec .nop s = .next { s with cmdq := s.cmdq.tail }

/-- R111: CLRERR sets ERR to 0 whatever error it holds, consumes its word and changes nothing else; with ERR = 0 it has no other
effect. -/
def Obligations.ClrerrOnlyClearsErr : Prop :=
  ∀ s : State, s.err.toNat ≤ 6 → exec .clrerr s = .next { s with err := 0#4, cmdq := s.cmdq.tail }

/-! ### Codec commands -/

/-- R87, success: with ERR = 0, a ready table, a free response slot, and IN starting with the two bits of a selector (least
significant first) and the raw bits of its alternative, DEC pushes the value, consumes exactly those bits, and sets LSEL
and LLEN. -/
def Obligations.DecPushesTheValueItReads : Prop :=
  ∀ (s : State) (t : BitVec 8) (D : Quad Desc) (sel : BitVec 2) (raw rest : BitString),
    s.err = 0#4 → s.readyAt t D → s.inBits = [sel.getLsbD 0, sel.getLsbD 1] ++ raw ++ rest →
    raw.length = (D.get sel).width → s.rsp.length < s.params.rspDepth →
    exec (.dec t) s = .next { s with
      inBits := rest
      rsp := s.rsp ++ [if (D.get sel).kind = .val then (D.get sel).param
        else BitVec.ofNat 32 (bitsToNat raw + (D.get sel).param.toNat)]
      lsel := sel
      llen := BitVec.ofNat 6 (2 + (D.get sel).width)
      cmdq := s.cmdq.tail }

/-- R127: DEC with EOS = 1 and too few bits raises IN_EXHAUSTED and IN loses some number k of its bits, 0 ≤ k ≤ |IN|; no word is
pushed and nothing else changes. (k is the model's free value: the statement holds whatever it is, log 3.) -/
def Obligations.DecRaisesInputExhausted : Prop :=
  ∀ (s : State) (t : BitVec 8) (D : Quad Desc), s.err = 0#4 → s.readyAt t D → s.inputShort D → s.eos = true →
    ∃ k, k ≤ s.inBits.length ∧ exec (.dec t) s = .next { s with
      inBits := s.inBits.drop k
      err := 6#4
      faultMark := true
      draws := s.draws + 1
      cmdq := s.cmdq.tail }

/-- R88, success: with ERR = 0 and a ready table, ENC appends the two bits of the selector that minimises (width, selector)
among the alternatives whose range holds v, then the bits of v - param, least significant first, and sets LSEL and LLEN. -/
def Obligations.EncAppendsSelectorAndRawBits : Prop :=
  ∀ (s : State) (t : BitVec 8) (v : Word) (D : Quad Desc) (sel : BitVec 2),
    s.err = 0#4 → s.readyAt t D → (D.get sel).inRange v = true →
    (∀ sel', (D.get sel').inRange v = true →
      (D.get sel).width < (D.get sel').width ∨ ((D.get sel).width = (D.get sel').width ∧ sel.toNat ≤ sel'.toNat)) →
    exec (.enc t v) s = .next { s with
      outBits := s.outBits ++ [sel.getLsbD 0, sel.getLsbD 1] ++
        (List.range (D.get sel).width).map (fun i => (v.toNat - (D.get sel).param.toNat).testBit i)
      lsel := sel
      llen := BitVec.ofNat 6 (2 + (D.get sel).width)
      pend := none
      cmdq := s.cmdq.tail }

/-- R89, success: SIZE pushes 2 plus the width of the alternative ENC would choose and sets LSEL and LLEN; IN and OUT are
unchanged. -/
def Obligations.SizePushesTheEncodedLength : Prop :=
  ∀ (s : State) (t : BitVec 8) (v : Word) (D : Quad Desc) (sel : BitVec 2),
    s.err = 0#4 → s.readyAt t D → (D.get sel).inRange v = true →
    (∀ sel', (D.get sel').inRange v = true →
      (D.get sel).width < (D.get sel').width ∨ ((D.get sel).width = (D.get sel').width ∧ sel.toNat ≤ sel'.toNat)) →
    s.rsp.length < s.params.rspDepth →
    exec (.size t v) s = .next { s with
      rsp := s.rsp ++ [BitVec.ofNat 32 (2 + (D.get sel).width)]
      lsel := sel
      llen := BitVec.ofNat 6 (2 + (D.get sel).width)
      pend := none
      cmdq := s.cmdq.tail }

/-- R126: ENC and SIZE of a value that no alternative's range holds raise NO_ALT; no bit is written and no word is pushed, even
when RSP is full. -/
def Obligations.ValueInNoRangeRaisesNoAlt : Prop :=
  ∀ (s : State) (t : BitVec 8) (v : Word) (D : Quad Desc),
    s.err = 0#4 → s.readyAt t D → choose D v = none →
    exec (.enc t v) s = .next { s with err := 5#4, faultMark := true, pend := none, cmdq := s.cmdq.tail } ∧
    exec (.size t v) s = .next { s with err := 5#4, faultMark := true, pend := none, cmdq := s.cmdq.tail }

/-- R123: a table index at or above NUM_TABLES raises TINDEX in DEC, ENC, SIZE, TBL.WR and TBL.RD, before anything else of the
command, and nothing but ERR, the mark and the command's words changes. -/
def Obligations.TableIndexOutOfRangeRaisesTindex : Prop :=
  ∀ (s : State) (t : BitVec 8), s.err = 0#4 → s.numTables ≤ t.toNat →
    exec (.dec t) s = .next { s with err := 2#4, faultMark := true, cmdq := s.cmdq.tail } ∧
    (∀ v, exec (.enc t v) s = .next { s with err := 2#4, faultMark := true, pend := none, cmdq := s.cmdq.tail }) ∧
    (∀ v, exec (.size t v) s = .next { s with err := 2#4, faultMark := true, pend := none, cmdq := s.cmdq.tail }) ∧
    (∀ sel k n p, exec (.tblWr t sel k n p) s =
      .next { s with err := 2#4, faultMark := true, pend := none, cmdq := s.cmdq.tail }) ∧
    (∀ sel, exec (.tblRd t sel) s = .next { s with err := 2#4, faultMark := true, cmdq := s.cmdq.tail })

/-- R124: DEC, ENC and SIZE on a table with any invalid entry raise TABLE_INVALID, whatever IN, OUT and RSP hold. -/
def Obligations.InvalidEntryRaisesTableInvalid : Prop :=
  ∀ (s : State) (t : BitVec 8) (sel : BitVec 2), s.err = 0#4 → entryAt s.tbl t sel = some none →
    exec (.dec t) s = .next { s with err := 3#4, faultMark := true, cmdq := s.cmdq.tail } ∧
    (∀ v, exec (.enc t v) s = .next { s with err := 3#4, faultMark := true, pend := none, cmdq := s.cmdq.tail }) ∧
    (∀ v, exec (.size t v) s = .next { s with err := 3#4, faultMark := true, pend := none, cmdq := s.cmdq.tail })

/-- R93, with R89 and R54: in every state whose ERR is no reserved code (I14), SIZE t, v ends in the very state of ENC t, v when
ENC is discarded or errs; when ENC succeeds and RSP has a free slot, SIZE pushes exactly the number of bits ENC appends and
sets the same LSEL and LLEN. The last clause is not R93's: with RSP full SIZE holds (R89, R54), and that a hold is a next
state equal to the old one is the model's choice (DESIGN CHOICE, log 4). -/
def Obligations.SizeAgreesWithEnc : Prop :=
  ∀ (s : State) (t : BitVec 8) (v : Word), s.err.toNat ≤ 6 →
    ∃ e, exec (.enc t v) s = .next e ∧
      (e.err ≠ 0#4 → exec (.size t v) s = .next e) ∧
      (e.err = 0#4 → s.rsp.length < s.params.rspDepth → ∃ z, exec (.size t v) s = .next z ∧
        z.rsp = s.rsp ++ [BitVec.ofNat 32 (e.outBits.length - s.outBits.length)] ∧ z.err = 0#4 ∧
        z.lsel = e.lsel ∧ z.llen = e.llen ∧ z.outBits = s.outBits ∧ z.inBits = s.inBits) ∧
      (e.err = 0#4 → s.params.rspDepth ≤ s.rsp.length → exec (.size t v) s = .next s)

/-- R90, the round trip: what ENC writes for a value under a legal ready table, DEC under the same table reads back as that value,
consuming exactly the 2 + width bits ENC wrote. -/
def Obligations.DecReadsBackWhatEncWrote : Prop :=
  ∀ (s : State) (t : BitVec 8) (D : Quad Desc) (v : Word) (sel : BitVec 2),
    s.err = 0#4 → s.readyAt t D → (∀ a, (D.get a).isLegal = true) → choose D v = some sel →
    ∃ u b, exec (.enc t v) s = .next u ∧ u.outBits = s.outBits ++ b ∧ b.length = 2 + (D.get sel).width ∧
      ∀ (s' : State) (rest : BitString), s'.err = 0#4 → s'.readyAt t D → s'.inBits = b ++ rest →
        s'.rsp.length < s'.params.rspDepth →
        ∃ u', exec (.dec t) s' = .next u' ∧ u'.rsp = s'.rsp ++ [v] ∧ u'.inBits = rest

/-- R91, re-encode stability: under a disjoint legal table, what DEC decodes from a bit string of the wire format, ENC writes
back as exactly that bit string; and the spec's table TB, which is not disjoint, breaks this: `01 00000000` decodes to 0,
and 0 is written as `00`. -/
def Obligations.DisjointTableReencodesTheSameBits : Prop :=
  (∀ (s : State) (t : BitVec 8) (D : Quad Desc) (sel : BitVec 2) (raw : Nat) (rest : BitString),
    s.err = 0#4 → s.readyAt t D → (∀ a, (D.get a).isLegal = true) → D.disjoint = true →
    raw < 2 ^ (D.get sel).width → s.inBits = wireBits D sel raw ++ rest → s.rsp.length < s.params.rspDepth →
    ∃ u v, exec (.dec t) s = .next u ∧ u.rsp = s.rsp ++ [v] ∧ u.inBits = rest ∧
      ∀ s' : State, s'.err = 0#4 → s'.readyAt t D →
        ∃ u', exec (.enc t v) s' = .next u' ∧ u'.outBits = s'.outBits ++ wireBits D sel raw) ∧
  (∃ (s : State) (D : Quad Desc), D = ⟨⟨.val, 0#6, 0#32⟩, ⟨.val, 0#6, 1#32⟩, ⟨.bits, 8#6, 0#32⟩, ⟨.bits, 32#6, 0#32⟩⟩ ∧
    s.err = 0#4 ∧ s.readyAt 0#8 D ∧ D.disjoint = false ∧
    s.inBits = [false, true] ++ List.replicate 8 false ∧
    ∃ u u', exec (.dec 0#8) s = .next u ∧ u.rsp = s.rsp ++ [0#32] ∧ u.inBits = [] ∧
      exec (.enc 0#8 0#32) s = .next u' ∧ u'.outBits = s.outBits ++ [false, false])

/-- R82: `BITS n` and `BITSOFF n, 0` have one range and width and differ in the kind code, which TBL.RD shows in the info word; and
DEC, ENC and SIZE do the same under the one as under the other in any entry: the two next states differ in that stored entry
only. -/
def Obligations.BitsAndBitsOffsetZeroAreAlike : Prop :=
  (∀ n : BitVec 6,
    (Desc.mk .bits n 0#32).width = (Desc.mk .bitsOffset n 0#32).width ∧
    (∀ v, (Desc.mk .bits n 0#32).inRange v = (Desc.mk .bitsOffset n 0#32).inRange v) ∧
    entryWords (some ⟨.bits, n, 0#32⟩) = [0x80010000#32 ||| n.setWidth 32 <<< 10, 0#32] ∧
    entryWords (some ⟨.bitsOffset, n, 0#32⟩) = [0x80020000#32 ||| n.setWidth 32 <<< 10, 0#32]) ∧
  ∀ (s : State) (t : BitVec 8) (T : Table) (q : BitVec 2) (n : BitVec 6) (v : Word) (i : Instr) (u : State),
    i = .dec t ∨ i = .enc t v ∨ i = .size t v → s.table? t = some T →
    exec i (s.setTable t (T.set q (some ⟨.bits, n, 0#32⟩))) = .next u →
    exec i (s.setTable t (T.set q (some ⟨.bitsOffset, n, 0#32⟩))) =
      .next (u.setTable t (T.set q (some ⟨.bitsOffset, n, 0#32⟩)))

/-! ### Table commands -/

/-- R100, success, with R62 and R103: TBL.WR of a legal descriptor makes TBL[t][s] that descriptor and leaves every other entry,
and every other part of the state but the command's words, as it was. -/
def Obligations.TblWrWritesExactlyOneEntry : Prop :=
  ∀ (s : State) (t : BitVec 8) (sel k : BitVec 2) (n : BitVec 6) (p : Word),
    s.err = 0#4 → t.toNat < s.numTables →
    ((k = 0#2 ∧ n = 0#6) ∨ (k = 1#2 ∧ 1 ≤ n.toNat ∧ n.toNat ≤ 32 ∧ p = 0#32) ∨
      (k = 2#2 ∧ 1 ≤ n.toNat ∧ n.toNat ≤ 32 ∧ p.toNat + 2 ^ n.toNat - 1 ≤ 2 ^ 32 - 1)) →
    ∃ ts d, exec (.tblWr t sel k n p) s = .next { s with tbl := ts, pend := none, cmdq := s.cmdq.tail } ∧
      ts.length = s.tbl.length ∧ d.kind.code = k ∧ d.n = n ∧ d.param = p ∧
      (∀ t' sel', entryAt ts t' sel' = if t' = t ∧ sel' = sel then some (some d) else entryAt s.tbl t' sel')

/-- R125 with R62: TBL.WR of a descriptor that is not legal raises DESC, and no entry changes. -/
def Obligations.IllegalDescriptorRaisesDesc : Prop :=
  ∀ (s : State) (t : BitVec 8) (sel k : BitVec 2) (n : BitVec 6) (p : Word),
    s.err = 0#4 → t.toNat < s.numTables →
    ¬ ((k = 0#2 ∧ n = 0#6) ∨ (k = 1#2 ∧ 1 ≤ n.toNat ∧ n.toNat ≤ 32 ∧ p = 0#32) ∨
      (k = 2#2 ∧ 1 ≤ n.toNat ∧ n.toNat ≤ 32 ∧ p.toNat + 2 ^ n.toNat - 1 ≤ 2 ^ 32 - 1)) →
    exec (.tblWr t sel k n p) s = .next { s with err := 4#4, faultMark := true, pend := none, cmdq := s.cmdq.tail }

/-- R101, success, with R102: TBL.RD pushes the info word and the param of a valid entry, and two zero words for an invalid one;
nothing else changes but CMDQ. -/
def Obligations.TblRdPushesInfoAndParam : Prop :=
  ∀ (s : State) (t : BitVec 8) (sel : BitVec 2), s.err = 0#4 → s.rsp.length + 2 ≤ s.params.rspDepth →
    (∀ d, entryAt s.tbl t sel = some (some d) →
      exec (.tblRd t sel) s = .next { s with
        rsp := s.rsp ++ [BitVec.ofNat 32 (2 ^ 31 + d.kind.code.toNat * 2 ^ 16 + d.n.toNat * 2 ^ 10), d.param]
        cmdq := s.cmdq.tail }) ∧
    (entryAt s.tbl t sel = some none →
      exec (.tblRd t sel) s = .next { s with rsp := s.rsp ++ [0#32, 0#32], cmdq := s.cmdq.tail })

/-- R52: a TBL.WR is visible to the next command: with the TBL.WR's header already in PEND, the CIC's first step runs it and its
second runs the TBL.RD after it in CMDQ, which pushes the descriptor just written. -/
def Obligations.TableWriteIsVisibleToTheNextRead : Prop :=
  ∀ (s : State) (t : BitVec 8) (sel k : BitVec 2) (n : BitVec 6) (p : Word) (rest : List Word),
    s.err = 0#4 → t.toNat < s.numTables → legal k n p = true → s.rsp.length + 2 ≤ s.params.rspDepth →
    s.pend = some (header (.tblWr t sel k n p)) → s.cmdq = p :: header (.tblRd t sel) :: rest →
    ∃ s1 s2, cicStep s = .next s1 ∧ cicStep s1 = .next s2 ∧ s2.cmdq = rest ∧ s2.pend = none ∧
      s2.rsp = s.rsp ++ [BitVec.ofNat 32 (2 ^ 31 + k.toNat * 2 ^ 16 + n.toNat * 2 ^ 10), p]

/-! ### Errors -/

/-- R128: the error a command raises is the first of the priority list, and it is decided before a hold. The error gate comes
before all: while ERR holds an error, every word but CLRERR keeps it. With ERR = 0, words that are no command raise ILLEGAL;
and DEC, ENC, SIZE, TBL.WR and TBL.RD end with the first error of their list that applies, whatever RSP and EOS hold, or with
none. That a DEC, SIZE or TBL.RD that holds answers a next state, with ERR still 0, is the model's choice (DESIGN CHOICE,
log 4). -/
def Obligations.FirstErrorOfThePriorityListIsRaised : Prop :=
  (∀ (w p : Word) (s : State), s.err ≠ 0#4 → s.err.toNat ≤ 6 → w ≠ 0xF0000000#32 →
    ∃ u, runCommand w p s = .next u ∧ u.err = s.err) ∧
  (∀ (w p : Word) (s : State), s.err = 0#4 → illegalHeader w → ∃ u, runCommand w p s = .next u ∧ u.err = 1#4) ∧
  ∀ (s : State) (t : BitVec 8), s.err = 0#4 →
    (∃ u, exec (.dec t) s = .next u ∧
      match s.table? t with
      | none => u.err = 2#4
      | some T => match T.ready? with
        | none => u.err = 3#4
        | some D => (s.inputShort D ∧ s.eos = true → u.err = 6#4) ∧ (¬ (s.inputShort D ∧ s.eos = true) → u.err = 0#4)) ∧
    (∀ v, ∃ u, exec (.enc t v) s = .next u ∧
      u.err = match s.table? t with
        | none => 2#4
        | some T => match T.ready? with
          | none => 3#4
          | some D => if choose D v = none then 5#4 else 0#4) ∧
    (∀ v, ∃ u, exec (.size t v) s = .next u ∧
      u.err = match s.table? t with
        | none => 2#4
        | some T => match T.ready? with
          | none => 3#4
          | some D => if choose D v = none then 5#4 else 0#4) ∧
    (∀ sel k n p, ∃ u, exec (.tblWr t sel k n p) s = .next u ∧
      u.err = if s.numTables ≤ t.toNat then 2#4 else if legal k n p = true then 0#4 else 4#4) ∧
    (∀ sel, ∃ u, exec (.tblRd t sel) s = .next u ∧ u.err = if s.numTables ≤ t.toNat then 2#4 else 0#4)

/-- R129: when a command raises an error while ERR = 0, ERR takes its code (1 to 6), err_o becomes 1, the fault mark is set
(R133), the command's words are consumed and nothing else changes, but for the input bits (and the model's draw, log 3) of
an IN_EXHAUSTED. The second clause is the error of words that are no command. -/
def Obligations.ErrorEntryChangesOnlyErr : Prop :=
  (∀ (i : Instr) (s u : State), s.err = 0#4 → exec i s = .next u → u.err ≠ 0#4 →
    1 ≤ u.err.toNat ∧ u.err.toNat ≤ 6 ∧ u.errO = true ∧
    ∃ k, k ≤ s.inBits.length ∧ (u.err ≠ 6#4 → k = 0) ∧
      u = { s with
        err := u.err
        faultMark := true
        cmdq := s.cmdq.tail
        pend := if (encode i).length = 2 then none else s.pend
        inBits := s.inBits.drop k
        draws := if u.err = 6#4 then s.draws + 1 else s.draws }) ∧
  (∀ (w p : Word) (s : State), s.err = 0#4 → illegalHeader w →
    runCommand w p s = .next { s with
      err := 1#4
      faultMark := true
      cmdq := s.cmdq.tail
      pend := if w.extractLsb' 28 4 ∈ [2#4, 3#4, 4#4] then none else s.pend })

/-- R25 and R132: a step changes ERR only by raising an error from ERR = 0 on the CIC's turn, by CLRERR at the head of CMDQ, or by
the host's Reset. -/
def Obligations.ErrHasOnlyThreeWriters : Prop :=
  ∀ s u : State, step s = .next u → u.err ≠ s.err →
    (s.err = 0#4 ∧ u.faultMark = true ∧ (s.agenda = [] ∨ ∃ as, s.agenda = .cic :: as)) ∨
    (u.err = 0#4 ∧ (s.agenda = [] ∨ ∃ as, s.agenda = .cic :: as) ∧
      ((s.pend = none ∧ s.cmdq.head? = some 0xF0000000#32) ∨ s.pend = some 0xF0000000#32)) ∨
    (u.err = 0#4 ∧ ∃ as, s.agenda = .host .reset :: as)

/-- R26: LSEL and LLEN keep their values when a command is discarded or raises, and over NOP, CLRERR, TBL.WR and TBL.RD; a DEC,
ENC or SIZE that does not wait (R54) and ends without an error sets LSEL to the selector it used and LLEN to 2 plus that alternative's width. -/
def Obligations.OnlyASuccessfulCodecCommandSetsLselAndLlen : Prop :=
  ∀ (i : Instr) (s u : State), exec i s = .next u →
    (s.err ≠ 0#4 ∨ u.err ≠ 0#4 ∨ i = .nop ∨ i = .clrerr ∨ (∃ t sel k n p, i = .tblWr t sel k n p) ∨
      (∃ t sel, i = .tblRd t sel) → u.lsel = s.lsel ∧ u.llen = s.llen) ∧
    (∀ (t : BitVec 8) (v : Word) (D : Quad Desc), s.err = 0#4 → u.err = 0#4 → ¬ s.waits i → s.readyAt t D →
      (i = .dec t → u.lsel = BitVec.ofNat 2 (peekBits 2 s.inBits)) ∧
      (i = .enc t v ∨ i = .size t v → choose D v = some u.lsel) ∧
      (i = .dec t ∨ i = .enc t v ∨ i = .size t v → u.llen = BitVec.ofNat 6 (2 + (D.get u.lsel).width)))

/-- R133: the fault mark is set whenever a step raises an error, and no step clears it, CLRERR included. That the host's Reset
keeps it is the model's reading (DEDUCED, log 9). -/
def Obligations.FaultMarkIsSetAndNeverCleared : Prop :=
  ∀ s u : State, step s = .next u →
    (s.faultMark = true → u.faultMark = true) ∧ (s.err = 0#4 → u.err ≠ 0#4 → u.faultMark = true)

/-! ### The host -/

/-- R55: each host action with its precondition has its effect and returns what its row says; ReadStatus changes nothing of the
CIC (R28). That an action without its precondition faults, and that returns are kept in `seen`, is the model's choice
(logs 7, 8). -/
def Obligations.HostActionsHaveTheirEffects : Prop :=
  ∀ s : State,
    (∀ w, hostAct (.pushCmd w) s = .next { s with cmdq := s.cmdq ++ [w] }) ∧
    (∀ bs, s.eos = false → hostAct (.pushBits bs) s = .next { s with inBits := s.inBits ++ bs }) ∧
    (∀ bs, s.eos = true → hostAct (.pushBits bs) s = .fault .pushBitsAfterEos) ∧
    hostAct .setEos s = .next { s with eos := true } ∧
    hostAct .flushIn s = .next { s with inBits := [], eos := false } ∧
    (∀ w ws, s.rsp = w :: ws → hostAct .popRsp s = .next { s with rsp := ws, seen := s.seen ++ [.popped w] }) ∧
    (s.rsp = [] → hostAct .popRsp s = .fault .popRspEmpty) ∧
    (∀ a b, s.outBits = a ++ b →
      hostAct (.takeOut a.length) s = .next { s with outBits := b, seen := s.seen ++ [.took a] }) ∧
    (∀ k, s.outBits.length < k → hostAct (.takeOut k) s = .fault .takeOutTooMany) ∧
    (s.err.toNat ≤ 6 → hostAct .readStatus s = .next { s with seen := s.seen ++ [.status s.statusWord] })

/-- R145 with R37: the host's Reset, in any state, sets every piece of R37's state to its reset value; IDLE reads 1 and err_o 0. What
the action leaves (the parameters, the fault mark, the draw counter, the agenda, the host's record) is the model's (log 9). -/
def Obligations.ResetRestoresEveryResetValue : Prop :=
  ∀ s : State, ∃ u, hostAct .reset s = .next u ∧ u.tbl = s.params.tableInit ∧ u.err = 0#4 ∧ u.lsel = 0#2 ∧ u.llen = 0#6 ∧
    u.rsp = [] ∧ u.cmdq = [] ∧ u.pend = none ∧ u.inBits = [] ∧ u.eos = false ∧ u.outBits = [] ∧
    u.idle = true ∧ u.errO = false ∧ u.statusWord = 0x80000000#32

/-- R56, for the host's PushCmd, PushBits, SetEOS, PopRsp and TakeOut: when the CIC's turn changes the state (it has a step, log 4)
and one of these five actions has a move, taking them in either order ends in the same state. FlushIn, Reset and ReadStatus
are not among them, and neither is a turn on which a command holds. -/
def Obligations.CicStepCommutesWithHostActions : Prop :=
  ∀ (a : HostAction) (s s1 s2 : State), a ≠ .flushIn → a ≠ .reset → a ≠ .readStatus →
    cicStep s = .next s1 → s1 ≠ s → hostAct a s = .next s2 →
    ∃ s3, cicStep s2 = .next s3 ∧ hostAct a s1 = .next s3

/-! ### Invariants and whole-machine rules -/

/-- The spec's invariants (R7-R9, R20, R21, R23, R24, R29, R30, R121, R133) hold of the next state of every step from a state
that meets them. -/
def Obligations.StepKeepsTheStateWellFormed : Prop :=
  ∀ s u : State, s.WF → step s = .next u → u.WF

/-- Reset meets the spec's invariants, for the model's reference parameters (its choice, log 1) and for every legal choice. -/
def Obligations.ResetStateIsWellFormed : Prop :=
  State.reset.WF ∧ ∀ p : Params, p.WF → (State.resetWith p).WF

/-- R103: no step but the host's Reset makes a valid entry invalid, so a table that is ready stays ready; and no step changes the
number of tables of a well-formed state or its parameters (R38). -/
def Obligations.ReadyTableStaysReadyUntilReset : Prop :=
  ∀ s u : State, s.WF → step s = .next u →
    u.params = s.params ∧ u.numTables = s.numTables ∧
    ((∀ as, s.agenda ≠ .host .reset :: as) → ∀ t sel, (∃ d, entryAt s.tbl t sel = some (some d)) →
      ∃ d, entryAt u.tbl t sel = some (some d))

/-- The frame of DEC, ENC and SIZE, on every path that gives a next state (R26, R47, R129): DEC leaves TBL and OUT, ENC leaves
TBL, IN and RSP, SIZE leaves TBL, IN and OUT; none touches the parameters, EOS, the agenda or the host's record; and LSEL
and LLEN change only where no error is left in ERR. -/
def Obligations.CodecCommandsLeaveTheRestAlone : Prop :=
  ∀ (i : Instr) (s u : State) (t : BitVec 8) (v : Word), i = .dec t ∨ i = .enc t v ∨ i = .size t v →
    exec i s = .next u →
    u.tbl = s.tbl ∧ u.params = s.params ∧ u.eos = s.eos ∧ u.agenda = s.agenda ∧ u.seen = s.seen ∧
    (u.err ≠ 0#4 → u.lsel = s.lsel ∧ u.llen = s.llen ∧ u.rsp = s.rsp ∧ u.outBits = s.outBits) ∧
    (i = .dec t → u.outBits = s.outBits ∧ u.pend = s.pend) ∧
    (i = .enc t v → u.inBits = s.inBits ∧ u.rsp = s.rsp ∧ u.draws = s.draws) ∧
    (i = .size t v → u.inBits = s.inBits ∧ u.outBits = s.outBits ∧ u.draws = s.draws)

/-- The frame of TBL.WR and TBL.RD, on every path that gives a next state (R26, R103, R129): both leave IN, EOS, OUT, LSEL, LLEN,
the parameters, the draws, the agenda and the host's record; TBL.WR leaves RSP and every entry but (t, s); TBL.RD leaves
TBL. -/
def Obligations.TableCommandsLeaveTheRestAlone : Prop :=
  ∀ (i : Instr) (s u : State) (t : BitVec 8) (sel k : BitVec 2) (n : BitVec 6) (p : Word),
    i = .tblWr t sel k n p ∨ i = .tblRd t sel → exec i s = .next u →
    u.inBits = s.inBits ∧ u.eos = s.eos ∧ u.outBits = s.outBits ∧ u.lsel = s.lsel ∧ u.llen = s.llen ∧
    u.params = s.params ∧ u.draws = s.draws ∧ u.agenda = s.agenda ∧ u.seen = s.seen ∧
    (i = .tblWr t sel k n p → u.rsp = s.rsp ∧
      ∀ t' sel', ¬ (t' = t ∧ sel' = sel) → entryAt u.tbl t' sel' = entryAt s.tbl t' sel') ∧
    (i = .tblRd t sel → u.tbl = s.tbl ∧ u.pend = s.pend)

/-- R47-R50, R58: over any CIC step, OUT and RSP only grow at the end, IN and CMDQ only lose bits and words at the front (at most
one word), EOS, the host's record and the agenda do not change, and RSP grows by at most two words. From a well-formed state
OUT grows by at most the 34 bits of the longest compressed integer (R6, R69), and IN loses at most 34 unless the step raises
IN_EXHAUSTED (R127). The bound 65 for other states is the model's, of descriptors that are not legal (log 13). -/
def Obligations.CicOnlyAppendsAndConsumes : Prop :=
  ∀ s u : State, cicStep s = .next u →
    (∃ b, u.outBits = s.outBits ++ b ∧ b.length ≤ 65 ∧ (s.WF → b.length ≤ 34)) ∧
    (∃ ws, u.rsp = s.rsp ++ ws ∧ ws.length ≤ 2) ∧
    (∃ k, u.inBits = s.inBits.drop k ∧ (s.WF → u.err = 6#4 ∨ k ≤ 34)) ∧
    (u.cmdq = s.cmdq ∨ u.cmdq = s.cmdq.tail) ∧
    u.eos = s.eos ∧ u.seen = s.seen ∧ u.agenda = s.agenda
end

