-- ==== Sys2Proof/Laws/Bits.lean ====
section
/-! SUPPORT. Laws of bit strings and the numbers they denote (20_memory.md R42, R43). -/

namespace Sys2Proof

@[simp] theorem bitsToNat_nil : bitsToNat [] = 0 := rfl

@[simp] theorem bitsToNat_cons (b : Bool) (bs : BitString) : bitsToNat (b :: bs) = b.toNat + 2 * bitsToNat bs := rfl

/-- A bit string of n bits denotes a number below 2^n. -/
theorem bitsToNat_lt (bs : BitString) : bitsToNat bs < 2 ^ bs.length := by
  induction bs with
  | nil => simp
  | cons b bs ih =>
    have hb : b.toNat ≤ 1 := by cases b <;> simp
    simp only [bitsToNat_cons, List.length_cons, Nat.pow_succ]
    omega

@[simp] theorem length_bitsOfNat (n v : Nat) : (bitsOfNat n v).length = n := by simp [bitsOfNat]

@[simp] theorem bitsOfNat_zero (v : Nat) : bitsOfNat 0 v = [] := rfl

/-- The first bit is the least significant one; the rest are the bits of v / 2. -/
theorem bitsOfNat_succ (n v : Nat) : bitsOfNat (n + 1) v = v.testBit 0 :: bitsOfNat n (v / 2) := by
  simp only [bitsOfNat, List.range_succ_eq_map, List.map_cons, List.map_map, List.cons.injEq, true_and]
  apply List.map_congr_left
  intro i _
  simp [Nat.testBit_succ]

/-- Bits read back as the number they were written from, modulo 2^n. -/
theorem bitsToNat_bitsOfNat (n v : Nat) : bitsToNat (bitsOfNat n v) = v % 2 ^ n := by
  induction n generalizing v with
  | zero => simp [Nat.mod_one]
  | succ n ih =>
    rw [bitsOfNat_succ, bitsToNat_cons, ih, Nat.pow_succ, Nat.mul_comm (2 ^ n) 2, Nat.mod_mul]
    have h : (v.testBit 0).toNat = v % 2 := by
      rw [Nat.testBit_zero]
      rcases Nat.mod_two_eq_zero_or_one v with h | h <;> simp [h]
    omega

/-- A bit string is written back from the number it denotes. -/
theorem bitsOfNat_bitsToNat (bs : BitString) : bitsOfNat bs.length (bitsToNat bs) = bs := by
  induction bs with
  | nil => rfl
  | cons b bs ih =>
    rw [List.length_cons, bitsOfNat_succ]
    have h : (bitsToNat (b :: bs)) / 2 = bitsToNat bs := by cases b <;> simp <;> omega
    rw [h, ih]
    cases b <;> simp [Nat.testBit_zero]

/-- Peeking past what is written first. -/
theorem peekBits_append (bs rest : BitString) : peekBits bs.length (bs ++ rest) = bitsToNat bs := by
  simp [peekBits]

/-- Peeking looks at no bit after the first n. -/
theorem peekBits_append_left (n : Nat) (bs rest : BitString) (h : n ≤ bs.length) :
    peekBits n (bs ++ rest) = peekBits n bs := by
  simp [peekBits, List.take_append_of_le_length h]

theorem peekBits_lt (n : Nat) (bs : BitString) : peekBits n bs < 2 ^ n := by
  refine Nat.lt_of_lt_of_le (bitsToNat_lt _) (Nat.pow_le_pow_right (by omega) ?_)
  simp

end Sys2Proof
end

