-- ==== Sys2Proof/Laws/Decode.lean ====
section
/-! SUPPORT. Laws of the command word: its fields (30_encoding.md R71), the rows of the opcode table as conditions on fields
(R75), and what the decoder answers in terms of them (R79). -/

namespace Sys2Proof

/-! ### Packing and fields -/

theorem packWord_getLsbD (op : BitVec 4) (t : BitVec 8) (s k : BitVec 2) (n : BitVec 6) (r : BitVec 10) (i : Nat) :
    (packWord op t s k n r).getLsbD i =
      if i < 10 then r.getLsbD i else if i < 16 then n.getLsbD (i - 10)
      else if i < 18 then k.getLsbD (i - 16) else if i < 20 then s.getLsbD (i - 18)
      else if i < 28 then t.getLsbD (i - 20) else op.getLsbD (i - 28) := by
  change BitVec.getLsbD (w := 4 + 8 + 2 + 2 + 6 + 10) (op ++ t ++ s ++ k ++ n ++ r) i = _
  simp only [BitVec.getLsbD_append]
  rcases Nat.lt_or_ge i 10 with h | h
  · simp [h]
  · simp only [show ¬ i < 10 by omega, if_false, Nat.sub_sub, Nat.reduceAdd,
      show (i - 10 < 6) ↔ i < 16 by omega, show (i - 16 < 2) ↔ i < 18 by omega,
      show (i - 18 < 2) ↔ i < 20 by omega, show (i - 20 < 8) ↔ i < 28 by omega]

/-- Every word is packed from its six fields (R71). -/
theorem packWord_fields (w : Word) : packWord (opOf w) (tOf w) (sOf w) (kOf w) (nOf w) (rsvOf w) = w := by
  apply BitVec.eq_of_getLsbD_eq
  intro i hi
  simp only [packWord_getLsbD, opOf, tOf, sOf, kOf, nOf, rsvOf, BitVec.getLsbD_extractLsb']
  interval_cases i <;> simp

@[simp] theorem opOf_packWord (op : BitVec 4) (t : BitVec 8) (s k : BitVec 2) (n : BitVec 6) (r : BitVec 10) :
    opOf (packWord op t s k n r) = op := by
  apply BitVec.eq_of_getLsbD_eq
  intro i hi
  simp only [opOf, BitVec.getLsbD_extractLsb', packWord_getLsbD]
  interval_cases i <;> simp

@[simp] theorem tOf_packWord (op : BitVec 4) (t : BitVec 8) (s k : BitVec 2) (n : BitVec 6) (r : BitVec 10) :
    tOf (packWord op t s k n r) = t := by
  apply BitVec.eq_of_getLsbD_eq
  intro i hi
  simp only [tOf, BitVec.getLsbD_extractLsb', packWord_getLsbD]
  interval_cases i <;> simp

@[simp] theorem sOf_packWord (op : BitVec 4) (t : BitVec 8) (s k : BitVec 2) (n : BitVec 6) (r : BitVec 10) :
    sOf (packWord op t s k n r) = s := by
  apply BitVec.eq_of_getLsbD_eq
  intro i hi
  simp only [sOf, BitVec.getLsbD_extractLsb', packWord_getLsbD]
  interval_cases i <;> simp

@[simp] theorem kOf_packWord (op : BitVec 4) (t : BitVec 8) (s k : BitVec 2) (n : BitVec 6) (r : BitVec 10) :
    kOf (packWord op t s k n r) = k := by
  apply BitVec.eq_of_getLsbD_eq
  intro i hi
  simp only [kOf, BitVec.getLsbD_extractLsb', packWord_getLsbD]
  interval_cases i <;> simp

@[simp] theorem nOf_packWord (op : BitVec 4) (t : BitVec 8) (s k : BitVec 2) (n : BitVec 6) (r : BitVec 10) :
    nOf (packWord op t s k n r) = n := by
  apply BitVec.eq_of_getLsbD_eq
  intro i hi
  simp only [nOf, BitVec.getLsbD_extractLsb', packWord_getLsbD]
  interval_cases i <;> simp

@[simp] theorem rsvOf_packWord (op : BitVec 4) (t : BitVec 8) (s k : BitVec 2) (n : BitVec 6) (r : BitVec 10) :
    rsvOf (packWord op t s k n r) = r := by
  apply BitVec.eq_of_getLsbD_eq
  intro i hi
  simp only [rsvOf, BitVec.getLsbD_extractLsb', packWord_getLsbD]
  interval_cases i <;> simp

/-- Two words with the same six fields are equal (R71). -/
theorem word_ext {v w : Word} (hop : opOf v = opOf w) (ht : tOf v = tOf w) (hs : sOf v = sOf w) (hk : kOf v = kOf w)
    (hn : nOf v = nOf w) (hr : rsvOf v = rsvOf w) : v = w := by
  rw [← packWord_fields v, hop, ht, hs, hk, hn, hr, packWord_fields]

/-- A masked word is packed from the masked fields. -/
theorem packWord_and (op op' : BitVec 4) (t t' : BitVec 8) (s s' k k' : BitVec 2) (n n' : BitVec 6) (r r' : BitVec 10) :
    packWord op t s k n r &&& packWord op' t' s' k' n' r' =
      packWord (op &&& op') (t &&& t') (s &&& s') (k &&& k') (n &&& n') (r &&& r') := by
  apply BitVec.eq_of_getLsbD_eq
  intro i hi
  simp only [BitVec.getLsbD_and, packWord_getLsbD]
  split_ifs <;> rfl

theorem packWord_inj (op op' : BitVec 4) (t t' : BitVec 8) (s s' k k' : BitVec 2) (n n' : BitVec 6) (r r' : BitVec 10) :
    packWord op t s k n r = packWord op' t' s' k' n' r' ↔
      op = op' ∧ t = t' ∧ s = s' ∧ k = k' ∧ n = n' ∧ r = r' := by
  constructor
  · intro h
    exact ⟨by simpa using congrArg opOf h, by simpa using congrArg tOf h, by simpa using congrArg sOf h,
      by simpa using congrArg kOf h, by simpa using congrArg nOf h, by simpa using congrArg rsvOf h⟩
  · rintro ⟨rfl, rfl, rfl, rfl, rfl, rfl⟩
    rfl

/-! ### The rows of the opcode table (R75) -/

/-- A row admits a word when each field, masked, is the row's. -/
theorem admits_iff (r : OpRow) (w : Word) :
    r.admits w = true ↔ opOf w &&& opOf r.mask = opOf r.pat ∧ tOf w &&& tOf r.mask = tOf r.pat ∧
      sOf w &&& sOf r.mask = sOf r.pat ∧ kOf w &&& kOf r.mask = kOf r.pat ∧ nOf w &&& nOf r.mask = nOf r.pat ∧
      rsvOf w &&& rsvOf r.mask = rsvOf r.pat := by
  rw [OpRow.admits, beq_iff_eq, ← packWord_inj, ← packWord_and, packWord_fields, packWord_fields, packWord_fields]

@[simp] theorem and_ones2 (x : BitVec 2) : x &&& 3#2 = x := BitVec.and_allOnes
@[simp] theorem and_ones4 (x : BitVec 4) : x &&& 15#4 = x := BitVec.and_allOnes
@[simp] theorem and_ones6 (x : BitVec 6) : x &&& 63#6 = x := BitVec.and_allOnes
@[simp] theorem and_ones8 (x : BitVec 8) : x &&& 255#8 = x := BitVec.and_allOnes
@[simp] theorem and_ones10 (x : BitVec 10) : x &&& 1023#10 = x := BitVec.and_allOnes

theorem rowNop_admits (w : Word) : rowNop.admits w = true ↔
    opOf w = 0#4 ∧ tOf w = 0#8 ∧ sOf w = 0#2 ∧ kOf w = 0#2 ∧ nOf w = 0#6 ∧ rsvOf w = 0#10 := by
  rw [admits_iff]
  simp [rowNop, opOf, tOf, sOf, kOf, nOf, rsvOf]

theorem rowDec_admits (w : Word) : rowDec.admits w = true ↔
    opOf w = 1#4 ∧ sOf w = 0#2 ∧ kOf w = 0#2 ∧ nOf w = 0#6 ∧ rsvOf w = 0#10 := by
  rw [admits_iff]
  simp [rowDec, opOf, tOf, sOf, kOf, nOf, rsvOf]

theorem rowEnc_admits (w : Word) : rowEnc.admits w = true ↔
    opOf w = 2#4 ∧ sOf w = 0#2 ∧ kOf w = 0#2 ∧ nOf w = 0#6 ∧ rsvOf w = 0#10 := by
  rw [admits_iff]
  simp [rowEnc, opOf, tOf, sOf, kOf, nOf, rsvOf]

theorem rowSize_admits (w : Word) : rowSize.admits w = true ↔
    opOf w = 3#4 ∧ sOf w = 0#2 ∧ kOf w = 0#2 ∧ nOf w = 0#6 ∧ rsvOf w = 0#10 := by
  rw [admits_iff]
  simp [rowSize, opOf, tOf, sOf, kOf, nOf, rsvOf]

theorem rowTblWr_admits (w : Word) : rowTblWr.admits w = true ↔
    opOf w = 4#4 ∧ rsvOf w = 0#10 := by
  rw [admits_iff]
  simp [rowTblWr, opOf, tOf, sOf, kOf, nOf, rsvOf]

theorem rowTblRd_admits (w : Word) : rowTblRd.admits w = true ↔
    opOf w = 5#4 ∧ kOf w = 0#2 ∧ nOf w = 0#6 ∧ rsvOf w = 0#10 := by
  rw [admits_iff]
  simp [rowTblRd, opOf, tOf, sOf, kOf, nOf, rsvOf]

theorem rowClrerr_admits (w : Word) : rowClrerr.admits w = true ↔
    opOf w = 15#4 ∧ tOf w = 0#8 ∧ sOf w = 0#2 ∧ kOf w = 0#2 ∧ nOf w = 0#6 ∧ rsvOf w = 0#10 := by
  rw [admits_iff]
  simp [rowClrerr, opOf, tOf, sOf, kOf, nOf, rsvOf]
/-! ### The decoder by fields (R79) -/

/-- What `decode` answers, by opcode: the command of R74 when the fields its opcode does not use are 0 (R75), else a
rejection by name. -/
theorem decode_fields (w p : Word) : decode w p =
    if opOf w = 0#4 then
      (if tOf w = 0#8 ∧ sOf w = 0#2 ∧ kOf w = 0#2 ∧ nOf w = 0#6 ∧ rsvOf w = 0#10 then .ok .nop
        else .error .nonzeroUnused)
    else if opOf w = 1#4 then
      (if sOf w = 0#2 ∧ kOf w = 0#2 ∧ nOf w = 0#6 ∧ rsvOf w = 0#10 then .ok (.dec (tOf w)) else .error .nonzeroUnused)
    else if opOf w = 2#4 then
      (if sOf w = 0#2 ∧ kOf w = 0#2 ∧ nOf w = 0#6 ∧ rsvOf w = 0#10 then .ok (.enc (tOf w) p) else .error .nonzeroUnused)
    else if opOf w = 3#4 then
      (if sOf w = 0#2 ∧ kOf w = 0#2 ∧ nOf w = 0#6 ∧ rsvOf w = 0#10 then .ok (.size (tOf w) p)
        else .error .nonzeroUnused)
    else if opOf w = 4#4 then
      (if rsvOf w = 0#10 then .ok (.tblWr (tOf w) (sOf w) (kOf w) (nOf w) p) else .error .nonzeroUnused)
    else if opOf w = 5#4 then
      (if kOf w = 0#2 ∧ nOf w = 0#6 ∧ rsvOf w = 0#10 then .ok (.tblRd (tOf w) (sOf w)) else .error .nonzeroUnused)
    else if opOf w = 15#4 then
      (if tOf w = 0#8 ∧ sOf w = 0#2 ∧ kOf w = 0#2 ∧ nOf w = 0#6 ∧ rsvOf w = 0#10 then .ok .clrerr
        else .error .nonzeroUnused)
    else .error .reservedOp := by
  have op_cases : ∀ x : BitVec 4, x = 0#4 ∨ x = 1#4 ∨ x = 2#4 ∨ x = 3#4 ∨ x = 4#4 ∨ x = 5#4 ∨ x = 15#4 ∨
      (x ≠ 0#4 ∧ x ≠ 1#4 ∧ x ≠ 2#4 ∧ x ≠ 3#4 ∧ x ≠ 4#4 ∧ x ≠ 5#4 ∧ x ≠ 15#4 ∧ 6#4 ≤ x ∧ x ≤ 14#4) := by decide
  simp only [decode, rowNop_admits, rowDec_admits, rowEnc_admits, rowSize_admits, rowTblWr_admits, rowTblRd_admits,
    rowClrerr_admits, reservedOp]
  rcases op_cases (opOf w) with h | h | h | h | h | h | h | ⟨h0, h1, h2, h3, h4, h5, h15, hl, hu⟩
  all_goals first
    | simp [h0, h1, h2, h3, h4, h5, h15, hl, hu]
    | simp [h]

/-! ### Length and format (R73) -/

/-- The length of a word by its opcode (R73). -/
theorem wordLen_packWord (op : BitVec 4) (t : BitVec 8) (s k : BitVec 2) (n : BitVec 6) (r : BitVec 10) :
    wordLen (packWord op t s k n r) = if op = 2#4 ∨ op = 3#4 ∨ op = 4#4 then 2 else 1 := by
  simp [wordLen]

/-- A length is 1 or 2 (R72). -/
theorem wordLen_cases (w : Word) : wordLen w = 1 ∨ wordLen w = 2 := by
  unfold wordLen
  split <;> simp

/-- A command's header word has the command's format. -/
theorem formatOf_header (i : Instr) : formatOf (header i) = i.format := by
  cases i <;> simp [formatOf, header, wordLen_packWord, Instr.format]

end Sys2Proof
end

