-- ==== Sys2Proof/Laws/Operands.lean ====
section
/-! SUPPORT. Laws of quads, descriptors, tables and the choice of an alternative (30_encoding.md R61-R64, 40_codec.md R85). -/

namespace Sys2Proof

/-! ### Selectors and quads -/

theorem sel_cases (s : BitVec 2) : s = 0#2 ∨ s = 1#2 ∨ s = 2#2 ∨ s = 3#2 := by
  revert s
  decide

@[simp] theorem Quad.get_zero {α : Type} (q : Quad α) : q.get 0#2 = q.e0 := rfl
@[simp] theorem Quad.get_one {α : Type} (q : Quad α) : q.get 1#2 = q.e1 := rfl
@[simp] theorem Quad.get_two {α : Type} (q : Quad α) : q.get 2#2 = q.e2 := rfl
@[simp] theorem Quad.get_three {α : Type} (q : Quad α) : q.get 3#2 = q.e3 := rfl

/-- Read after write in a quad. -/
theorem Quad.get_set {α : Type} (q : Quad α) (s s' : BitVec 2) (x : α) :
    (q.set s x).get s' = if s' = s then x else q.get s' := by
  rcases sel_cases s with rfl | rfl | rfl | rfl <;> rcases sel_cases s' with rfl | rfl | rfl | rfl <;> rfl

/-- Two quads with the same members are equal. -/
theorem Quad.ext_get {α : Type} {p q : Quad α} (h : ∀ s, p.get s = q.get s) : p = q := by
  cases p
  cases q
  have h0 := h 0#2
  have h1 := h 1#2
  have h2 := h 2#2
  have h3 := h 3#2
  simp only [Quad.get_zero, Quad.get_one, Quad.get_two, Quad.get_three] at h0 h1 h2 h3
  rw [h0, h1, h2, h3]

/-- A table is ready with the descriptors D when every entry is the valid entry of D (R64). -/
theorem Quad.ready?_eq_some (T : Table) (D : Quad Desc) :
    T.ready? = some D ↔ ∀ s, T.get s = some (D.get s) := by
  constructor
  · intro h s
    obtain ⟨e0, e1, e2, e3⟩ := T
    cases e0 <;> cases e1 <;> cases e2 <;> cases e3 <;> simp only [Quad.ready?, reduceCtorEq, Option.some.injEq] at h
    subst h
    rcases sel_cases s with rfl | rfl | rfl | rfl <;> rfl
  · intro h
    have h0 := h 0#2
    have h1 := h 1#2
    have h2 := h 2#2
    have h3 := h 3#2
    obtain ⟨e0, e1, e2, e3⟩ := T
    simp only [Quad.get_zero, Quad.get_one, Quad.get_two, Quad.get_three] at h0 h1 h2 h3
    subst h0 h1 h2 h3
    rfl

/-- A table is not ready when some entry is invalid (R86). -/
theorem Quad.ready?_eq_none (T : Table) : T.ready? = none ↔ ∃ s, T.get s = none := by
  constructor
  · intro h
    by_contra hn
    push Not at hn
    obtain ⟨d0, h0⟩ := Option.ne_none_iff_exists'.mp (hn 0#2)
    obtain ⟨d1, h1⟩ := Option.ne_none_iff_exists'.mp (hn 1#2)
    obtain ⟨d2, h2⟩ := Option.ne_none_iff_exists'.mp (hn 2#2)
    obtain ⟨d3, h3⟩ := Option.ne_none_iff_exists'.mp (hn 3#2)
    have : T.ready? = some ⟨d0, d1, d2, d3⟩ := by
      rw [Quad.ready?_eq_some]
      intro s
      rcases sel_cases s with rfl | rfl | rfl | rfl <;> simp_all
    rw [h] at this
    cases this
  · rintro ⟨s, hs⟩
    cases h : T.ready? with
    | none => rfl
    | some D =>
      rw [Quad.ready?_eq_some] at h
      rw [h s] at hs
      cases hs

/-! ### Descriptors -/

@[simp] theorem Kind.ofCode_code (k : Kind) : Kind.ofCode k.code = some k := by cases k <;> rfl

theorem Kind.ofCode_eq_some (c : BitVec 2) (k : Kind) : Kind.ofCode c = some k ↔ c = k.code := by
  have h : ∀ c : BitVec 2, c = 0#2 ∨ c = 1#2 ∨ c = 2#2 ∨ c = 3#2 := sel_cases
  rcases h c with rfl | rfl | rfl | rfl <;> cases k <;> simp [Kind.ofCode, Kind.code]

/-- `Legal` as the disjunction of R62. -/
theorem legal_iff (k : BitVec 2) (n : BitVec 6) (p : Word) : legal k n p = true ↔
    (k = 0#2 ∧ n = 0#6) ∨ (k = 1#2 ∧ 1 ≤ n.toNat ∧ n.toNat ≤ 32 ∧ p = 0#32) ∨
      (k = 2#2 ∧ 1 ≤ n.toNat ∧ n.toNat ≤ 32 ∧ p.toNat + 2 ^ n.toNat - 1 ≤ 2 ^ 32 - 1) := by
  simp only [legal, Bool.or_eq_true, Bool.and_eq_true, beq_iff_eq, decide_eq_true_eq]
  tauto

/-- Legal fields are a descriptor with exactly those fields (R100). -/
theorem Desc.ofFields_of_legal (k : BitVec 2) (n : BitVec 6) (p : Word) (h : legal k n p = true) :
    ∃ d, Desc.ofFields k n p = some d ∧ d.kind.code = k ∧ d.n = n ∧ d.param = p ∧ d.isLegal = true := by
  have hk : ∃ kd, Kind.ofCode k = some kd := by
    rcases (legal_iff k n p).mp h with ⟨rfl, _⟩ | ⟨rfl, _⟩ | ⟨rfl, _⟩
    · exact ⟨.val, rfl⟩
    · exact ⟨.bits, rfl⟩
    · exact ⟨.bitsOffset, rfl⟩
  obtain ⟨kd, hkd⟩ := hk
  have hc : kd.code = k := ((Kind.ofCode_eq_some k kd).mp hkd).symm
  refine ⟨⟨kd, n, p⟩, by simp [Desc.ofFields, h, hkd], hc, rfl, rfl, ?_⟩
  simp [Desc.isLegal, hc, h]

theorem Desc.ofFields_of_not_legal (k : BitVec 2) (n : BitVec 6) (p : Word) (h : ¬ legal k n p = true) :
    Desc.ofFields k n p = none := by
  simp [Desc.ofFields, h]

/-- A descriptor is legal by kind (R62). -/
theorem Desc.isLegal_iff (d : Desc) : d.isLegal = true ↔
    match d.kind with
    | .val => d.n = 0#6
    | .bits => 1 ≤ d.n.toNat ∧ d.n.toNat ≤ 32 ∧ d.param = 0#32
    | .bitsOffset => 1 ≤ d.n.toNat ∧ d.n.toNat ≤ 32 ∧ d.param.toNat + 2 ^ d.n.toNat - 1 ≤ 2 ^ 32 - 1 := by
  rw [Desc.isLegal, legal_iff]
  cases d.kind <;> simp [Kind.code]

/-- A width is at most 63, the largest N field. -/
theorem Desc.width_le_63 (d : Desc) : d.width ≤ 63 := by
  have := d.n.isLt
  unfold Desc.width
  split <;> omega

/-- A legal width is at most 32 (R6). -/
theorem Desc.width_le_32 (d : Desc) (h : d.isLegal = true) : d.width ≤ 32 := by
  rw [Desc.isLegal_iff] at h
  unfold Desc.width
  split <;> simp_all

theorem Desc.inRange_iff (d : Desc) (v : Word) : d.inRange v = true ↔ d.lo ≤ v.toNat ∧ v.toNat ≤ d.hi := by
  simp [Desc.inRange]

/-! ### Choose -/

/-- What Choose picks has a range that holds the value (R85). -/
theorem inRange_of_choose (D : Quad Desc) (v : Word) (s : BitVec 2) (h : choose D v = some s) :
    (D.get s).inRange v = true := by
  have key : ∀ (l : List (BitVec 2)) (best : Option (BitVec 2)),
      (∀ b, best = some b → (D.get b).inRange v = true) →
      ∀ b, l.foldl (betterAlt D v) best = some b → (D.get b).inRange v = true := by
    intro l
    induction l with
    | nil => intro best hb b h; exact hb b h
    | cons a l ih =>
      intro best hb b h
      refine ih (betterAlt D v best a) ?_ b h
      intro c hc
      unfold betterAlt at hc
      split at hc
      · split at hc
        · cases hc; assumption
        · rename_i b' _
          split at hc
          · cases hc; assumption
          · cases hc; exact hb _ rfl
      · exact hb c hc
  exact key _ none (by simp) s h

end Sys2Proof
end

