-- ==== Sys2Proof/Laws/State.lean ====
section
/-! SUPPORT. The fields of the state after each named update: one lemma per field and update, so that no proof unfolds an
update. -/

namespace Sys2Proof.Machine

/-! ### consume -/

@[simp] theorem State.consume_params (s : State) (f : Format) : (s.consume f).params = s.params := rfl
@[simp] theorem State.consume_tbl (s : State) (f : Format) : (s.consume f).tbl = s.tbl := rfl
@[simp] theorem State.consume_err (s : State) (f : Format) : (s.consume f).err = s.err := rfl
@[simp] theorem State.consume_lsel (s : State) (f : Format) : (s.consume f).lsel = s.lsel := rfl
@[simp] theorem State.consume_llen (s : State) (f : Format) : (s.consume f).llen = s.llen := rfl
@[simp] theorem State.consume_rsp (s : State) (f : Format) : (s.consume f).rsp = s.rsp := rfl
@[simp] theorem State.consume_cmdq (s : State) (f : Format) : (s.consume f).cmdq = s.cmdq.tail := rfl
@[simp] theorem State.consume_h_pend (s : State) : (s.consume .h).pend = s.pend := rfl
@[simp] theorem State.consume_hp_pend (s : State) : (s.consume .hp).pend = none := rfl
@[simp] theorem State.consume_inBits (s : State) (f : Format) : (s.consume f).inBits = s.inBits := rfl
@[simp] theorem State.consume_eos (s : State) (f : Format) : (s.consume f).eos = s.eos := rfl
@[simp] theorem State.consume_outBits (s : State) (f : Format) : (s.consume f).outBits = s.outBits := rfl
@[simp] theorem State.consume_faultMark (s : State) (f : Format) : (s.consume f).faultMark = s.faultMark := rfl
@[simp] theorem State.consume_draws (s : State) (f : Format) : (s.consume f).draws = s.draws := rfl
@[simp] theorem State.consume_agenda (s : State) (f : Format) : (s.consume f).agenda = s.agenda := rfl
@[simp] theorem State.consume_seen (s : State) (f : Format) : (s.consume f).seen = s.seen := rfl

/-! ### push -/

@[simp] theorem State.push_params (s : State) (ws : List Word) : (s.push ws).params = s.params := rfl
@[simp] theorem State.push_tbl (s : State) (ws : List Word) : (s.push ws).tbl = s.tbl := rfl
@[simp] theorem State.push_err (s : State) (ws : List Word) : (s.push ws).err = s.err := rfl
@[simp] theorem State.push_lsel (s : State) (ws : List Word) : (s.push ws).lsel = s.lsel := rfl
@[simp] theorem State.push_llen (s : State) (ws : List Word) : (s.push ws).llen = s.llen := rfl
@[simp] theorem State.push_rsp (s : State) (ws : List Word) : (s.push ws).rsp = s.rsp ++ ws := rfl
@[simp] theorem State.push_cmdq (s : State) (ws : List Word) : (s.push ws).cmdq = s.cmdq := rfl
@[simp] theorem State.push_pend (s : State) (ws : List Word) : (s.push ws).pend = s.pend := rfl
@[simp] theorem State.push_inBits (s : State) (ws : List Word) : (s.push ws).inBits = s.inBits := rfl
@[simp] theorem State.push_eos (s : State) (ws : List Word) : (s.push ws).eos = s.eos := rfl
@[simp] theorem State.push_outBits (s : State) (ws : List Word) : (s.push ws).outBits = s.outBits := rfl
@[simp] theorem State.push_faultMark (s : State) (ws : List Word) : (s.push ws).faultMark = s.faultMark := rfl
@[simp] theorem State.push_draws (s : State) (ws : List Word) : (s.push ws).draws = s.draws := rfl
@[simp] theorem State.push_agenda (s : State) (ws : List Word) : (s.push ws).agenda = s.agenda := rfl
@[simp] theorem State.push_seen (s : State) (ws : List Word) : (s.push ws).seen = s.seen := rfl

/-! ### dropIn -/

@[simp] theorem State.dropIn_params (s : State) (n : Nat) : (s.dropIn n).params = s.params := rfl
@[simp] theorem State.dropIn_tbl (s : State) (n : Nat) : (s.dropIn n).tbl = s.tbl := rfl
@[simp] theorem State.dropIn_err (s : State) (n : Nat) : (s.dropIn n).err = s.err := rfl
@[simp] theorem State.dropIn_lsel (s : State) (n : Nat) : (s.dropIn n).lsel = s.lsel := rfl
@[simp] theorem State.dropIn_llen (s : State) (n : Nat) : (s.dropIn n).llen = s.llen := rfl
@[simp] theorem State.dropIn_rsp (s : State) (n : Nat) : (s.dropIn n).rsp = s.rsp := rfl
@[simp] theorem State.dropIn_cmdq (s : State) (n : Nat) : (s.dropIn n).cmdq = s.cmdq := rfl
@[simp] theorem State.dropIn_pend (s : State) (n : Nat) : (s.dropIn n).pend = s.pend := rfl
@[simp] theorem State.dropIn_inBits (s : State) (n : Nat) : (s.dropIn n).inBits = s.inBits.drop n := rfl
@[simp] theorem State.dropIn_eos (s : State) (n : Nat) : (s.dropIn n).eos = s.eos := rfl
@[simp] theorem State.dropIn_outBits (s : State) (n : Nat) : (s.dropIn n).outBits = s.outBits := rfl
@[simp] theorem State.dropIn_faultMark (s : State) (n : Nat) : (s.dropIn n).faultMark = s.faultMark := rfl
@[simp] theorem State.dropIn_draws (s : State) (n : Nat) : (s.dropIn n).draws = s.draws := rfl
@[simp] theorem State.dropIn_agenda (s : State) (n : Nat) : (s.dropIn n).agenda = s.agenda := rfl
@[simp] theorem State.dropIn_seen (s : State) (n : Nat) : (s.dropIn n).seen = s.seen := rfl

/-! ### appendOut -/

@[simp] theorem State.appendOut_params (s : State) (bs : BitString) : (s.appendOut bs).params = s.params := rfl
@[simp] theorem State.appendOut_tbl (s : State) (bs : BitString) : (s.appendOut bs).tbl = s.tbl := rfl
@[simp] theorem State.appendOut_err (s : State) (bs : BitString) : (s.appendOut bs).err = s.err := rfl
@[simp] theorem State.appendOut_lsel (s : State) (bs : BitString) : (s.appendOut bs).lsel = s.lsel := rfl
@[simp] theorem State.appendOut_llen (s : State) (bs : BitString) : (s.appendOut bs).llen = s.llen := rfl
@[simp] theorem State.appendOut_rsp (s : State) (bs : BitString) : (s.appendOut bs).rsp = s.rsp := rfl
@[simp] theorem State.appendOut_cmdq (s : State) (bs : BitString) : (s.appendOut bs).cmdq = s.cmdq := rfl
@[simp] theorem State.appendOut_pend (s : State) (bs : BitString) : (s.appendOut bs).pend = s.pend := rfl
@[simp] theorem State.appendOut_inBits (s : State) (bs : BitString) : (s.appendOut bs).inBits = s.inBits := rfl
@[simp] theorem State.appendOut_eos (s : State) (bs : BitString) : (s.appendOut bs).eos = s.eos := rfl
@[simp] theorem State.appendOut_outBits (s : State) (bs : BitString) : (s.appendOut bs).outBits = s.outBits ++ bs := rfl
@[simp] theorem State.appendOut_faultMark (s : State) (bs : BitString) : (s.appendOut bs).faultMark = s.faultMark := rfl
@[simp] theorem State.appendOut_draws (s : State) (bs : BitString) : (s.appendOut bs).draws = s.draws := rfl
@[simp] theorem State.appendOut_agenda (s : State) (bs : BitString) : (s.appendOut bs).agenda = s.agenda := rfl
@[simp] theorem State.appendOut_seen (s : State) (bs : BitString) : (s.appendOut bs).seen = s.seen := rfl

/-! ### setResult -/

@[simp] theorem State.setResult_params (s : State) (sel : BitVec 2) (w : Nat) : (s.setResult sel w).params = s.params :=
    rfl
@[simp] theorem State.setResult_tbl (s : State) (sel : BitVec 2) (w : Nat) : (s.setResult sel w).tbl = s.tbl := rfl
@[simp] theorem State.setResult_err (s : State) (sel : BitVec 2) (w : Nat) : (s.setResult sel w).err = s.err := rfl
@[simp] theorem State.setResult_lsel (s : State) (sel : BitVec 2) (w : Nat) : (s.setResult sel w).lsel = sel := rfl
@[simp] theorem State.setResult_llen (s : State) (sel : BitVec 2) (w : Nat) :
    (s.setResult sel w).llen = BitVec.ofNat 6 (2 + w) := rfl
@[simp] theorem State.setResult_rsp (s : State) (sel : BitVec 2) (w : Nat) : (s.setResult sel w).rsp = s.rsp := rfl
@[simp] theorem State.setResult_cmdq (s : State) (sel : BitVec 2) (w : Nat) : (s.setResult sel w).cmdq = s.cmdq := rfl
@[simp] theorem State.setResult_pend (s : State) (sel : BitVec 2) (w : Nat) : (s.setResult sel w).pend = s.pend := rfl
@[simp] theorem State.setResult_inBits (s : State) (sel : BitVec 2) (w : Nat) : (s.setResult sel w).inBits = s.inBits :=
    rfl
@[simp] theorem State.setResult_eos (s : State) (sel : BitVec 2) (w : Nat) : (s.setResult sel w).eos = s.eos := rfl
@[simp] theorem State.setResult_outBits (s : State) (sel : BitVec 2) (w : Nat) :
    (s.setResult sel w).outBits = s.outBits := rfl
@[simp] theorem State.setResult_faultMark (s : State) (sel : BitVec 2) (w : Nat) :
    (s.setResult sel w).faultMark = s.faultMark := rfl
@[simp] theorem State.setResult_draws (s : State) (sel : BitVec 2) (w : Nat) : (s.setResult sel w).draws = s.draws :=
    rfl
@[simp] theorem State.setResult_agenda (s : State) (sel : BitVec 2) (w : Nat) : (s.setResult sel w).agenda = s.agenda :=
    rfl
@[simp] theorem State.setResult_seen (s : State) (sel : BitVec 2) (w : Nat) : (s.setResult sel w).seen = s.seen := rfl

/-! ### failInput -/

@[simp] theorem State.failInput_params (s : State) : (s.failInput).params = s.params := rfl
@[simp] theorem State.failInput_tbl (s : State) : (s.failInput).tbl = s.tbl := rfl
@[simp] theorem State.failInput_err (s : State) : (s.failInput).err = s.err := rfl
@[simp] theorem State.failInput_lsel (s : State) : (s.failInput).lsel = s.lsel := rfl
@[simp] theorem State.failInput_llen (s : State) : (s.failInput).llen = s.llen := rfl
@[simp] theorem State.failInput_rsp (s : State) : (s.failInput).rsp = s.rsp := rfl
@[simp] theorem State.failInput_cmdq (s : State) : (s.failInput).cmdq = s.cmdq := rfl
@[simp] theorem State.failInput_pend (s : State) : (s.failInput).pend = s.pend := rfl
@[simp] theorem State.failInput_inBits (s : State) :
    (s.failInput).inBits = s.inBits.drop (Config.inputLossDraw s.draws % (s.inBits.length + 1)) := rfl
@[simp] theorem State.failInput_eos (s : State) : (s.failInput).eos = s.eos := rfl
@[simp] theorem State.failInput_outBits (s : State) : (s.failInput).outBits = s.outBits := rfl
@[simp] theorem State.failInput_faultMark (s : State) : (s.failInput).faultMark = s.faultMark := rfl
@[simp] theorem State.failInput_draws (s : State) : (s.failInput).draws = s.draws + 1 := rfl
@[simp] theorem State.failInput_agenda (s : State) : (s.failInput).agenda = s.agenda := rfl
@[simp] theorem State.failInput_seen (s : State) : (s.failInput).seen = s.seen := rfl

/-! ### setTable -/

@[simp] theorem State.setTable_params (s : State) (t : BitVec 8) (T : Table) : (s.setTable t T).params = s.params := rfl
@[simp] theorem State.setTable_tbl (s : State) (t : BitVec 8) (T : Table) :
    (s.setTable t T).tbl = s.tbl.set t.toNat T := rfl
@[simp] theorem State.setTable_err (s : State) (t : BitVec 8) (T : Table) : (s.setTable t T).err = s.err := rfl
@[simp] theorem State.setTable_lsel (s : State) (t : BitVec 8) (T : Table) : (s.setTable t T).lsel = s.lsel := rfl
@[simp] theorem State.setTable_llen (s : State) (t : BitVec 8) (T : Table) : (s.setTable t T).llen = s.llen := rfl
@[simp] theorem State.setTable_rsp (s : State) (t : BitVec 8) (T : Table) : (s.setTable t T).rsp = s.rsp := rfl
@[simp] theorem State.setTable_cmdq (s : State) (t : BitVec 8) (T : Table) : (s.setTable t T).cmdq = s.cmdq := rfl
@[simp] theorem State.setTable_pend (s : State) (t : BitVec 8) (T : Table) : (s.setTable t T).pend = s.pend := rfl
@[simp] theorem State.setTable_inBits (s : State) (t : BitVec 8) (T : Table) : (s.setTable t T).inBits = s.inBits := rfl
@[simp] theorem State.setTable_eos (s : State) (t : BitVec 8) (T : Table) : (s.setTable t T).eos = s.eos := rfl
@[simp] theorem State.setTable_outBits (s : State) (t : BitVec 8) (T : Table) : (s.setTable t T).outBits = s.outBits :=
    rfl
@[simp] theorem State.setTable_faultMark (s : State) (t : BitVec 8) (T : Table) :
    (s.setTable t T).faultMark = s.faultMark := rfl
@[simp] theorem State.setTable_draws (s : State) (t : BitVec 8) (T : Table) : (s.setTable t T).draws = s.draws := rfl
@[simp] theorem State.setTable_agenda (s : State) (t : BitVec 8) (T : Table) : (s.setTable t T).agenda = s.agenda := rfl
@[simp] theorem State.setTable_seen (s : State) (t : BitVec 8) (T : Table) : (s.setTable t T).seen = s.seen := rfl

/-! ### raiseError -/

@[simp] theorem State.raiseError_params (s : State) (e : ErrCode) : (s.raiseError e).params = s.params := rfl
@[simp] theorem State.raiseError_tbl (s : State) (e : ErrCode) : (s.raiseError e).tbl = s.tbl := rfl
@[simp] theorem State.raiseError_err (s : State) (e : ErrCode) : (s.raiseError e).err = e.code := rfl
@[simp] theorem State.raiseError_lsel (s : State) (e : ErrCode) : (s.raiseError e).lsel = s.lsel := rfl
@[simp] theorem State.raiseError_llen (s : State) (e : ErrCode) : (s.raiseError e).llen = s.llen := rfl
@[simp] theorem State.raiseError_rsp (s : State) (e : ErrCode) : (s.raiseError e).rsp = s.rsp := rfl
@[simp] theorem State.raiseError_cmdq (s : State) (e : ErrCode) : (s.raiseError e).cmdq = s.cmdq := rfl
@[simp] theorem State.raiseError_pend (s : State) (e : ErrCode) : (s.raiseError e).pend = s.pend := rfl
@[simp] theorem State.raiseError_inBits (s : State) (e : ErrCode) : (s.raiseError e).inBits = s.inBits := rfl
@[simp] theorem State.raiseError_eos (s : State) (e : ErrCode) : (s.raiseError e).eos = s.eos := rfl
@[simp] theorem State.raiseError_outBits (s : State) (e : ErrCode) : (s.raiseError e).outBits = s.outBits := rfl
@[simp] theorem State.raiseError_faultMark (s : State) (e : ErrCode) : (s.raiseError e).faultMark = true := rfl
@[simp] theorem State.raiseError_draws (s : State) (e : ErrCode) : (s.raiseError e).draws = s.draws := rfl
@[simp] theorem State.raiseError_agenda (s : State) (e : ErrCode) : (s.raiseError e).agenda = s.agenda := rfl
@[simp] theorem State.raiseError_seen (s : State) (e : ErrCode) : (s.raiseError e).seen = s.seen := rfl

/-! ### clearError -/

@[simp] theorem State.clearError_params (s : State) : (s.clearError).params = s.params := rfl
@[simp] theorem State.clearError_tbl (s : State) : (s.clearError).tbl = s.tbl := rfl
@[simp] theorem State.clearError_err (s : State) : (s.clearError).err = 0#4 := rfl
@[simp] theorem State.clearError_lsel (s : State) : (s.clearError).lsel = s.lsel := rfl
@[simp] theorem State.clearError_llen (s : State) : (s.clearError).llen = s.llen := rfl
@[simp] theorem State.clearError_rsp (s : State) : (s.clearError).rsp = s.rsp := rfl
@[simp] theorem State.clearError_cmdq (s : State) : (s.clearError).cmdq = s.cmdq := rfl
@[simp] theorem State.clearError_pend (s : State) : (s.clearError).pend = s.pend := rfl
@[simp] theorem State.clearError_inBits (s : State) : (s.clearError).inBits = s.inBits := rfl
@[simp] theorem State.clearError_eos (s : State) : (s.clearError).eos = s.eos := rfl
@[simp] theorem State.clearError_outBits (s : State) : (s.clearError).outBits = s.outBits := rfl
@[simp] theorem State.clearError_faultMark (s : State) : (s.clearError).faultMark = s.faultMark := rfl
@[simp] theorem State.clearError_draws (s : State) : (s.clearError).draws = s.draws := rfl
@[simp] theorem State.clearError_agenda (s : State) : (s.clearError).agenda = s.agenda := rfl
@[simp] theorem State.clearError_seen (s : State) : (s.clearError).seen = s.seen := rfl

/-! ### frameHeader -/

@[simp] theorem frameHeader_params (s : State) (w : Word) (ws : List Word) : (frameHeader w ws s).params = s.params :=
    rfl
@[simp] theorem frameHeader_tbl (s : State) (w : Word) (ws : List Word) : (frameHeader w ws s).tbl = s.tbl := rfl
@[simp] theorem frameHeader_err (s : State) (w : Word) (ws : List Word) : (frameHeader w ws s).err = s.err := rfl
@[simp] theorem frameHeader_lsel (s : State) (w : Word) (ws : List Word) : (frameHeader w ws s).lsel = s.lsel := rfl
@[simp] theorem frameHeader_llen (s : State) (w : Word) (ws : List Word) : (frameHeader w ws s).llen = s.llen := rfl
@[simp] theorem frameHeader_rsp (s : State) (w : Word) (ws : List Word) : (frameHeader w ws s).rsp = s.rsp := rfl
@[simp] theorem frameHeader_cmdq (s : State) (w : Word) (ws : List Word) : (frameHeader w ws s).cmdq = ws := rfl
@[simp] theorem frameHeader_pend (s : State) (w : Word) (ws : List Word) : (frameHeader w ws s).pend = some w := rfl
@[simp] theorem frameHeader_inBits (s : State) (w : Word) (ws : List Word) : (frameHeader w ws s).inBits = s.inBits :=
    rfl
@[simp] theorem frameHeader_eos (s : State) (w : Word) (ws : List Word) : (frameHeader w ws s).eos = s.eos := rfl
@[simp] theorem frameHeader_outBits (s : State) (w : Word) (ws : List Word) :
    (frameHeader w ws s).outBits = s.outBits := rfl
@[simp] theorem frameHeader_faultMark (s : State) (w : Word) (ws : List Word) :
    (frameHeader w ws s).faultMark = s.faultMark := rfl
@[simp] theorem frameHeader_draws (s : State) (w : Word) (ws : List Word) : (frameHeader w ws s).draws = s.draws := rfl
@[simp] theorem frameHeader_agenda (s : State) (w : Word) (ws : List Word) : (frameHeader w ws s).agenda = s.agenda :=
    rfl
@[simp] theorem frameHeader_seen (s : State) (w : Word) (ws : List Word) : (frameHeader w ws s).seen = s.seen := rfl

/-! ### saw -/

@[simp] theorem State.saw_params (s : State) (r : HostReturn) : (s.saw r).params = s.params := rfl
@[simp] theorem State.saw_tbl (s : State) (r : HostReturn) : (s.saw r).tbl = s.tbl := rfl
@[simp] theorem State.saw_err (s : State) (r : HostReturn) : (s.saw r).err = s.err := rfl
@[simp] theorem State.saw_lsel (s : State) (r : HostReturn) : (s.saw r).lsel = s.lsel := rfl
@[simp] theorem State.saw_llen (s : State) (r : HostReturn) : (s.saw r).llen = s.llen := rfl
@[simp] theorem State.saw_rsp (s : State) (r : HostReturn) : (s.saw r).rsp = s.rsp := rfl
@[simp] theorem State.saw_cmdq (s : State) (r : HostReturn) : (s.saw r).cmdq = s.cmdq := rfl
@[simp] theorem State.saw_pend (s : State) (r : HostReturn) : (s.saw r).pend = s.pend := rfl
@[simp] theorem State.saw_inBits (s : State) (r : HostReturn) : (s.saw r).inBits = s.inBits := rfl
@[simp] theorem State.saw_eos (s : State) (r : HostReturn) : (s.saw r).eos = s.eos := rfl
@[simp] theorem State.saw_outBits (s : State) (r : HostReturn) : (s.saw r).outBits = s.outBits := rfl
@[simp] theorem State.saw_faultMark (s : State) (r : HostReturn) : (s.saw r).faultMark = s.faultMark := rfl
@[simp] theorem State.saw_draws (s : State) (r : HostReturn) : (s.saw r).draws = s.draws := rfl
@[simp] theorem State.saw_agenda (s : State) (r : HostReturn) : (s.saw r).agenda = s.agenda := rfl
@[simp] theorem State.saw_seen (s : State) (r : HostReturn) : (s.saw r).seen = s.seen ++ [r] := rfl

/-! ### pushCmd -/

@[simp] theorem State.pushCmd_params (s : State) (w : Word) : (s.pushCmd w).params = s.params := rfl
@[simp] theorem State.pushCmd_tbl (s : State) (w : Word) : (s.pushCmd w).tbl = s.tbl := rfl
@[simp] theorem State.pushCmd_err (s : State) (w : Word) : (s.pushCmd w).err = s.err := rfl
@[simp] theorem State.pushCmd_lsel (s : State) (w : Word) : (s.pushCmd w).lsel = s.lsel := rfl
@[simp] theorem State.pushCmd_llen (s : State) (w : Word) : (s.pushCmd w).llen = s.llen := rfl
@[simp] theorem State.pushCmd_rsp (s : State) (w : Word) : (s.pushCmd w).rsp = s.rsp := rfl
@[simp] theorem State.pushCmd_cmdq (s : State) (w : Word) : (s.pushCmd w).cmdq = s.cmdq ++ [w] := rfl
@[simp] theorem State.pushCmd_pend (s : State) (w : Word) : (s.pushCmd w).pend = s.pend := rfl
@[simp] theorem State.pushCmd_inBits (s : State) (w : Word) : (s.pushCmd w).inBits = s.inBits := rfl
@[simp] theorem State.pushCmd_eos (s : State) (w : Word) : (s.pushCmd w).eos = s.eos := rfl
@[simp] theorem State.pushCmd_outBits (s : State) (w : Word) : (s.pushCmd w).outBits = s.outBits := rfl
@[simp] theorem State.pushCmd_faultMark (s : State) (w : Word) : (s.pushCmd w).faultMark = s.faultMark := rfl
@[simp] theorem State.pushCmd_draws (s : State) (w : Word) : (s.pushCmd w).draws = s.draws := rfl
@[simp] theorem State.pushCmd_agenda (s : State) (w : Word) : (s.pushCmd w).agenda = s.agenda := rfl
@[simp] theorem State.pushCmd_seen (s : State) (w : Word) : (s.pushCmd w).seen = s.seen := rfl

/-! ### pushBits -/

@[simp] theorem State.pushBits_params (s : State) (bs : BitString) : (s.pushBits bs).params = s.params := rfl
@[simp] theorem State.pushBits_tbl (s : State) (bs : BitString) : (s.pushBits bs).tbl = s.tbl := rfl
@[simp] theorem State.pushBits_err (s : State) (bs : BitString) : (s.pushBits bs).err = s.err := rfl
@[simp] theorem State.pushBits_lsel (s : State) (bs : BitString) : (s.pushBits bs).lsel = s.lsel := rfl
@[simp] theorem State.pushBits_llen (s : State) (bs : BitString) : (s.pushBits bs).llen = s.llen := rfl
@[simp] theorem State.pushBits_rsp (s : State) (bs : BitString) : (s.pushBits bs).rsp = s.rsp := rfl
@[simp] theorem State.pushBits_cmdq (s : State) (bs : BitString) : (s.pushBits bs).cmdq = s.cmdq := rfl
@[simp] theorem State.pushBits_pend (s : State) (bs : BitString) : (s.pushBits bs).pend = s.pend := rfl
@[simp] theorem State.pushBits_inBits (s : State) (bs : BitString) : (s.pushBits bs).inBits = s.inBits ++ bs := rfl
@[simp] theorem State.pushBits_eos (s : State) (bs : BitString) : (s.pushBits bs).eos = s.eos := rfl
@[simp] theorem State.pushBits_outBits (s : State) (bs : BitString) : (s.pushBits bs).outBits = s.outBits := rfl
@[simp] theorem State.pushBits_faultMark (s : State) (bs : BitString) : (s.pushBits bs).faultMark = s.faultMark := rfl
@[simp] theorem State.pushBits_draws (s : State) (bs : BitString) : (s.pushBits bs).draws = s.draws := rfl
@[simp] theorem State.pushBits_agenda (s : State) (bs : BitString) : (s.pushBits bs).agenda = s.agenda := rfl
@[simp] theorem State.pushBits_seen (s : State) (bs : BitString) : (s.pushBits bs).seen = s.seen := rfl

/-! ### setEos -/

@[simp] theorem State.setEos_params (s : State) : (s.setEos).params = s.params := rfl
@[simp] theorem State.setEos_tbl (s : State) : (s.setEos).tbl = s.tbl := rfl
@[simp] theorem State.setEos_err (s : State) : (s.setEos).err = s.err := rfl
@[simp] theorem State.setEos_lsel (s : State) : (s.setEos).lsel = s.lsel := rfl
@[simp] theorem State.setEos_llen (s : State) : (s.setEos).llen = s.llen := rfl
@[simp] theorem State.setEos_rsp (s : State) : (s.setEos).rsp = s.rsp := rfl
@[simp] theorem State.setEos_cmdq (s : State) : (s.setEos).cmdq = s.cmdq := rfl
@[simp] theorem State.setEos_pend (s : State) : (s.setEos).pend = s.pend := rfl
@[simp] theorem State.setEos_inBits (s : State) : (s.setEos).inBits = s.inBits := rfl
@[simp] theorem State.setEos_eos (s : State) : (s.setEos).eos = true := rfl
@[simp] theorem State.setEos_outBits (s : State) : (s.setEos).outBits = s.outBits := rfl
@[simp] theorem State.setEos_faultMark (s : State) : (s.setEos).faultMark = s.faultMark := rfl
@[simp] theorem State.setEos_draws (s : State) : (s.setEos).draws = s.draws := rfl
@[simp] theorem State.setEos_agenda (s : State) : (s.setEos).agenda = s.agenda := rfl
@[simp] theorem State.setEos_seen (s : State) : (s.setEos).seen = s.seen := rfl

/-! ### flushIn -/

@[simp] theorem State.flushIn_params (s : State) : (s.flushIn).params = s.params := rfl
@[simp] theorem State.flushIn_tbl (s : State) : (s.flushIn).tbl = s.tbl := rfl
@[simp] theorem State.flushIn_err (s : State) : (s.flushIn).err = s.err := rfl
@[simp] theorem State.flushIn_lsel (s : State) : (s.flushIn).lsel = s.lsel := rfl
@[simp] theorem State.flushIn_llen (s : State) : (s.flushIn).llen = s.llen := rfl
@[simp] theorem State.flushIn_rsp (s : State) : (s.flushIn).rsp = s.rsp := rfl
@[simp] theorem State.flushIn_cmdq (s : State) : (s.flushIn).cmdq = s.cmdq := rfl
@[simp] theorem State.flushIn_pend (s : State) : (s.flushIn).pend = s.pend := rfl
@[simp] theorem State.flushIn_inBits (s : State) : (s.flushIn).inBits = [] := rfl
@[simp] theorem State.flushIn_eos (s : State) : (s.flushIn).eos = false := rfl
@[simp] theorem State.flushIn_outBits (s : State) : (s.flushIn).outBits = s.outBits := rfl
@[simp] theorem State.flushIn_faultMark (s : State) : (s.flushIn).faultMark = s.faultMark := rfl
@[simp] theorem State.flushIn_draws (s : State) : (s.flushIn).draws = s.draws := rfl
@[simp] theorem State.flushIn_agenda (s : State) : (s.flushIn).agenda = s.agenda := rfl
@[simp] theorem State.flushIn_seen (s : State) : (s.flushIn).seen = s.seen := rfl

/-! ### tailRsp -/

@[simp] theorem State.tailRsp_params (s : State) : (s.tailRsp).params = s.params := rfl
@[simp] theorem State.tailRsp_tbl (s : State) : (s.tailRsp).tbl = s.tbl := rfl
@[simp] theorem State.tailRsp_err (s : State) : (s.tailRsp).err = s.err := rfl
@[simp] theorem State.tailRsp_lsel (s : State) : (s.tailRsp).lsel = s.lsel := rfl
@[simp] theorem State.tailRsp_llen (s : State) : (s.tailRsp).llen = s.llen := rfl
@[simp] theorem State.tailRsp_rsp (s : State) : (s.tailRsp).rsp = s.rsp.tail := rfl
@[simp] theorem State.tailRsp_cmdq (s : State) : (s.tailRsp).cmdq = s.cmdq := rfl
@[simp] theorem State.tailRsp_pend (s : State) : (s.tailRsp).pend = s.pend := rfl
@[simp] theorem State.tailRsp_inBits (s : State) : (s.tailRsp).inBits = s.inBits := rfl
@[simp] theorem State.tailRsp_eos (s : State) : (s.tailRsp).eos = s.eos := rfl
@[simp] theorem State.tailRsp_outBits (s : State) : (s.tailRsp).outBits = s.outBits := rfl
@[simp] theorem State.tailRsp_faultMark (s : State) : (s.tailRsp).faultMark = s.faultMark := rfl
@[simp] theorem State.tailRsp_draws (s : State) : (s.tailRsp).draws = s.draws := rfl
@[simp] theorem State.tailRsp_agenda (s : State) : (s.tailRsp).agenda = s.agenda := rfl
@[simp] theorem State.tailRsp_seen (s : State) : (s.tailRsp).seen = s.seen := rfl

/-! ### dropOut -/

@[simp] theorem State.dropOut_params (s : State) (k : Nat) : (s.dropOut k).params = s.params := rfl
@[simp] theorem State.dropOut_tbl (s : State) (k : Nat) : (s.dropOut k).tbl = s.tbl := rfl
@[simp] theorem State.dropOut_err (s : State) (k : Nat) : (s.dropOut k).err = s.err := rfl
@[simp] theorem State.dropOut_lsel (s : State) (k : Nat) : (s.dropOut k).lsel = s.lsel := rfl
@[simp] theorem State.dropOut_llen (s : State) (k : Nat) : (s.dropOut k).llen = s.llen := rfl
@[simp] theorem State.dropOut_rsp (s : State) (k : Nat) : (s.dropOut k).rsp = s.rsp := rfl
@[simp] theorem State.dropOut_cmdq (s : State) (k : Nat) : (s.dropOut k).cmdq = s.cmdq := rfl
@[simp] theorem State.dropOut_pend (s : State) (k : Nat) : (s.dropOut k).pend = s.pend := rfl
@[simp] theorem State.dropOut_inBits (s : State) (k : Nat) : (s.dropOut k).inBits = s.inBits := rfl
@[simp] theorem State.dropOut_eos (s : State) (k : Nat) : (s.dropOut k).eos = s.eos := rfl
@[simp] theorem State.dropOut_outBits (s : State) (k : Nat) : (s.dropOut k).outBits = s.outBits.drop k := rfl
@[simp] theorem State.dropOut_faultMark (s : State) (k : Nat) : (s.dropOut k).faultMark = s.faultMark := rfl
@[simp] theorem State.dropOut_draws (s : State) (k : Nat) : (s.dropOut k).draws = s.draws := rfl
@[simp] theorem State.dropOut_agenda (s : State) (k : Nat) : (s.dropOut k).agenda = s.agenda := rfl
@[simp] theorem State.dropOut_seen (s : State) (k : Nat) : (s.dropOut k).seen = s.seen := rfl

/-! ### resetCic -/

@[simp] theorem State.resetCic_params (s : State) : (s.resetCic).params = s.params := rfl
@[simp] theorem State.resetCic_tbl (s : State) : (s.resetCic).tbl = s.params.tableInit := rfl
@[simp] theorem State.resetCic_err (s : State) : (s.resetCic).err = 0#4 := rfl
@[simp] theorem State.resetCic_lsel (s : State) : (s.resetCic).lsel = 0#2 := rfl
@[simp] theorem State.resetCic_llen (s : State) : (s.resetCic).llen = 0#6 := rfl
@[simp] theorem State.resetCic_rsp (s : State) : (s.resetCic).rsp = [] := rfl
@[simp] theorem State.resetCic_cmdq (s : State) : (s.resetCic).cmdq = [] := rfl
@[simp] theorem State.resetCic_pend (s : State) : (s.resetCic).pend = none := rfl
@[simp] theorem State.resetCic_inBits (s : State) : (s.resetCic).inBits = [] := rfl
@[simp] theorem State.resetCic_eos (s : State) : (s.resetCic).eos = false := rfl
@[simp] theorem State.resetCic_outBits (s : State) : (s.resetCic).outBits = [] := rfl
@[simp] theorem State.resetCic_faultMark (s : State) : (s.resetCic).faultMark = s.faultMark := rfl
@[simp] theorem State.resetCic_draws (s : State) : (s.resetCic).draws = s.draws := rfl
@[simp] theorem State.resetCic_agenda (s : State) : (s.resetCic).agenda = s.agenda := rfl
@[simp] theorem State.resetCic_seen (s : State) : (s.resetCic).seen = s.seen := rfl

/-! ### withAgenda -/

@[simp] theorem State.withAgenda_params (s : State) (as : List Turn) : (s.withAgenda as).params = s.params := rfl
@[simp] theorem State.withAgenda_tbl (s : State) (as : List Turn) : (s.withAgenda as).tbl = s.tbl := rfl
@[simp] theorem State.withAgenda_err (s : State) (as : List Turn) : (s.withAgenda as).err = s.err := rfl
@[simp] theorem State.withAgenda_lsel (s : State) (as : List Turn) : (s.withAgenda as).lsel = s.lsel := rfl
@[simp] theorem State.withAgenda_llen (s : State) (as : List Turn) : (s.withAgenda as).llen = s.llen := rfl
@[simp] theorem State.withAgenda_rsp (s : State) (as : List Turn) : (s.withAgenda as).rsp = s.rsp := rfl
@[simp] theorem State.withAgenda_cmdq (s : State) (as : List Turn) : (s.withAgenda as).cmdq = s.cmdq := rfl
@[simp] theorem State.withAgenda_pend (s : State) (as : List Turn) : (s.withAgenda as).pend = s.pend := rfl
@[simp] theorem State.withAgenda_inBits (s : State) (as : List Turn) : (s.withAgenda as).inBits = s.inBits := rfl
@[simp] theorem State.withAgenda_eos (s : State) (as : List Turn) : (s.withAgenda as).eos = s.eos := rfl
@[simp] theorem State.withAgenda_outBits (s : State) (as : List Turn) : (s.withAgenda as).outBits = s.outBits := rfl
@[simp] theorem State.withAgenda_faultMark (s : State) (as : List Turn) : (s.withAgenda as).faultMark = s.faultMark :=
    rfl
@[simp] theorem State.withAgenda_draws (s : State) (as : List Turn) : (s.withAgenda as).draws = s.draws := rfl
@[simp] theorem State.withAgenda_agenda (s : State) (as : List Turn) : (s.withAgenda as).agenda = as := rfl
@[simp] theorem State.withAgenda_seen (s : State) (as : List Turn) : (s.withAgenda as).seen = s.seen := rfl

end Sys2Proof.Machine
end

