-- ==== Sys2Proof/Laws/Ops.lean ====
section
/-! SUPPORT. One lemma for each shared operation and for each command's verdict: everything it can answer. A proof about a
command cites these and does not unfold the operation. -/

namespace Sys2Proof.Machine

/-! ### STATUS -/

theorem err_cases (e : BitVec 4) : 7#4 ≤ e ↔ 7 ≤ e.toNat := by
  rw [BitVec.le_def]
  rfl

@[simp] theorem State.reservedErr_iff (s : State) : s.reservedErr = true ↔ 7 ≤ s.err.toNat := by
  simp [State.reservedErr, err_cases]

theorem State.reservedErr_of_le (s : State) (h : s.err.toNat ≤ 6) : s.reservedErr = false := by
  rw [Bool.eq_false_iff, ne_eq, State.reservedErr_iff]
  omega

theorem ErrCode.code_ne_zero (e : ErrCode) : e.code ≠ 0#4 := by cases e <;> decide

theorem ErrCode.code_le (e : ErrCode) : 1 ≤ e.code.toNat ∧ e.code.toNat ≤ 6 := by cases e <;> decide

theorem ErrCode.code_eq_six (e : ErrCode) : e.code = 6#4 ↔ e = .inExhausted := by cases e <;> decide

/-! ### The error gate and the end of a command (R54, R129, R130) -/

theorem gated_reserved (f : Format) (s : State) (v : Verdict) (h : 7 ≤ s.err.toNat) :
    gated f s v = .refused .reservedErrorCode := by
  simp [gated, h]

theorem gated_discard (f : Format) (s : State) (v : Verdict) (h : s.err ≠ 0#4) (hr : s.err.toNat ≤ 6) :
    gated f s v = .next (s.consume f) := by
  simp [gated, State.reservedErr_of_le s hr, h]

theorem gated_run (f : Format) (s : State) (v : Verdict) (h : s.err = 0#4) : gated f s v = commit f s v := by
  have hr : s.reservedErr = false := s.reservedErr_of_le (by simp [h])
  simp [gated, hr, h]

/-- The state a command that passed the gate ends in. -/
def settle (f : Format) (s : State) : Verdict → State
  | .done t => t.consume f
  | .raise e t => (t.raiseError e).consume f
  | .hold => s

theorem commit_eq (f : Format) (s : State) (v : Verdict) : commit f s v = .next (settle f s v) := by
  cases v <;> rfl

/-- Everything the gate can answer when it answers a next state. -/
theorem gated_cases {f : Format} {s u : State} {v : Verdict} (h : gated f s v = .next u) :
    s.err.toNat ≤ 6 ∧ ((s.err ≠ 0#4 ∧ u = s.consume f) ∨ (s.err = 0#4 ∧ u = settle f s v)) := by
  rcases Nat.lt_or_ge 6 s.err.toNat with hr | hr
  · rw [gated_reserved f s v hr] at h
    cases h
  · refine ⟨hr, ?_⟩
    by_cases he : s.err = 0#4
    · rw [gated_run f s v he, commit_eq] at h
      cases h
      exact .inr ⟨he, rfl⟩
    · rw [gated_discard f s v he hr] at h
      cases h
      exact .inl ⟨he, rfl⟩

/-! ### The table memory (R41, R86) -/

theorem State.table?_eq_none (s : State) (t : BitVec 8) : s.table? t = none ↔ s.numTables ≤ t.toNat := by
  simp [State.table?, State.numTables]

theorem State.table?_eq_some (s : State) (t : BitVec 8) (h : t.toNat < s.numTables) : ∃ T, s.table? t = some T := by
  cases hT : s.table? t with
  | none =>
    rw [State.table?_eq_none] at hT
    omega
  | some T => exact ⟨T, rfl⟩

theorem entryAt_tbl (s : State) (t : BitVec 8) (sel : BitVec 2) :
    entryAt s.tbl t sel = (s.table? t).map (fun T => T.get sel) := rfl

/-- Read after write in the table memory. -/
theorem entryAt_set (ts : List Table) (t t' : BitVec 8) (T : Table) (sel : BitVec 2) (h : t.toNat < ts.length) :
    entryAt (ts.set t.toNat T) t' sel = if t' = t then some (T.get sel) else entryAt ts t' sel := by
  by_cases he : t' = t
  · subst he
    simp [entryAt, h]
  · have hn : t.toNat ≠ t'.toNat := fun hn => he (BitVec.eq_of_toNat_eq hn.symm)
    simp [entryAt, he, hn]

theorem State.checkTable_eq_ok (s : State) (t : BitVec 8) (D : Quad Desc) :
    s.checkTable t = .ok D ↔ s.readyAt t D := by
  unfold State.readyAt
  cases hT : s.table? t with
  | none => simp [State.checkTable, hT]
  | some T =>
    rw [show (∃ T', some T = some T' ∧ ∀ sel, T'.get sel = some (D.get sel)) ↔ T.ready? = some D by
      simp [Quad.ready?_eq_some]]
    cases hR : T.ready? <;> simp [State.checkTable, hT, hR]

theorem State.checkTable_tindex (s : State) (t : BitVec 8) (h : s.numTables ≤ t.toNat) :
    s.checkTable t = .error .tindex := by
  simp [State.checkTable, (s.table?_eq_none t).mpr h]

theorem State.checkTable_invalid (s : State) (t : BitVec 8) (T : Table) (hT : s.table? t = some T)
    (h : T.ready? = none) : s.checkTable t = .error .tableInvalid := by
  simp [State.checkTable, hT, h]

/-- Everything CheckTable can answer (R86). -/
theorem State.checkTable_cases (s : State) (t : BitVec 8) :
    (s.checkTable t = .error .tindex ∧ s.table? t = none) ∨
    (∃ T, s.checkTable t = .error .tableInvalid ∧ s.table? t = some T ∧ T.ready? = none) ∨
    (∃ T D, s.checkTable t = .ok D ∧ s.table? t = some T ∧ T.ready? = some D) := by
  cases hT : s.table? t with
  | none => exact .inl ⟨by simp [State.checkTable, hT], rfl⟩
  | some T =>
    cases hR : T.ready? with
    | none => exact .inr (.inl ⟨T, by simp [State.checkTable, hT, hR], rfl, hR⟩)
    | some D => exact .inr (.inr ⟨T, D, by simp [State.checkTable, hT, hR], rfl, hR⟩)

/-! ### The verdicts of the commands -/

/-- The state DEC ends in, before its word is consumed (R87). -/
def decDone (D : Quad Desc) (s : State) : State :=
  let sel := BitVec.ofNat 2 (peekBits 2 s.inBits)
  let raw := peekBits (D.get sel).width (s.inBits.drop 2)
  ((s.dropIn (2 + (D.get sel).width)).push [(D.get sel).value raw]).setResult sel (D.get sel).width

/-- DEC on a ready table (R87). -/
theorem decVerdict_ready (s : State) (t : BitVec 8) (D : Quad Desc) (h : s.readyAt t D) :
    (s.inputShort D → decVerdict t s = if s.eos then .raise .inExhausted s.failInput else .hold) ∧
    (¬ s.inputShort D → decVerdict t s = if s.params.rspDepth ≤ s.rsp.length then .hold else .done (decDone D s)) := by
  have hc := (s.checkTable_eq_ok t D).mpr h
  unfold State.inputShort
  constructor
  · intro hs
    by_cases h2 : s.inBits.length < 2
    · simp [decVerdict, hc, h2, decStarved]
    · have hw := hs.resolve_left h2
      simp [decVerdict, hc, h2, decSelected, hw, decStarved]
  · intro hs
    push Not at hs
    have hf : s.freeSlots < 1 ↔ s.params.rspDepth ≤ s.rsp.length := by
      unfold State.freeSlots
      omega
    simp [decVerdict, hc, decSelected, hf, decDone, Nat.not_lt.mpr hs.1, Nat.not_lt.mpr hs.2]

theorem decVerdict_exhausted (s : State) (t : BitVec 8) (D : Quad Desc) (h : s.readyAt t D) (hs : s.inputShort D)
    (he : s.eos = true) : decVerdict t s = .raise .inExhausted s.failInput := by
  rw [(decVerdict_ready s t D h).1 hs, if_pos he]

theorem decVerdict_starved (s : State) (t : BitVec 8) (D : Quad Desc) (h : s.readyAt t D) (hs : s.inputShort D)
    (he : s.eos = false) : decVerdict t s = .hold := by
  rw [(decVerdict_ready s t D h).1 hs, if_neg (by simp [he])]

theorem decVerdict_full (s : State) (t : BitVec 8) (D : Quad Desc) (h : s.readyAt t D) (hs : ¬ s.inputShort D)
    (hf : s.params.rspDepth ≤ s.rsp.length) : decVerdict t s = .hold := by
  rw [(decVerdict_ready s t D h).2 hs, if_pos hf]

theorem decVerdict_done (s : State) (t : BitVec 8) (D : Quad Desc) (h : s.readyAt t D) (hs : ¬ s.inputShort D)
    (hf : s.rsp.length < s.params.rspDepth) : decVerdict t s = .done (decDone D s) := by
  rw [(decVerdict_ready s t D h).2 hs, if_neg (Nat.not_le.mpr hf)]

/-- DEC on a table that is not there or not ready raises, with the state as it is (R86). -/
theorem decVerdict_error (s : State) (t : BitVec 8) (e : ErrCode) (h : s.checkTable t = .error e) :
    decVerdict t s = .raise e s := by
  simp [decVerdict, h]

/-- ENC on a ready table whose ranges do not hold the value (R88). -/
theorem encVerdict_noAlt (s : State) (t : BitVec 8) (v : Word) (D : Quad Desc) (h : s.readyAt t D)
    (hc : choose D v = none) : encVerdict t v s = .raise .noAlt s := by
  simp [encVerdict, (s.checkTable_eq_ok t D).mpr h, hc]

/-- ENC on a ready table, with the alternative chosen (R88). -/
theorem encVerdict_some (s : State) (t : BitVec 8) (v : Word) (D : Quad Desc) (sel : BitVec 2) (h : s.readyAt t D)
    (hc : choose D v = some sel) : encVerdict t v s =
      .done ((s.appendOut (wireBits D sel ((D.get sel).rawOf v))).setResult sel (D.get sel).width) := by
  simp [encVerdict, (s.checkTable_eq_ok t D).mpr h, hc]

theorem encVerdict_error (s : State) (t : BitVec 8) (v : Word) (e : ErrCode) (h : s.checkTable t = .error e) :
    encVerdict t v s = .raise e s := by
  simp [encVerdict, h]

/-- SIZE on a ready table whose ranges do not hold the value (R89). -/
theorem sizeVerdict_noAlt (s : State) (t : BitVec 8) (v : Word) (D : Quad Desc) (h : s.readyAt t D)
    (hc : choose D v = none) : sizeVerdict t v s = .raise .noAlt s := by
  simp [sizeVerdict, (s.checkTable_eq_ok t D).mpr h, hc]

/-- SIZE on a ready table, with the alternative chosen and no free slot (R89). -/
theorem sizeVerdict_full (s : State) (t : BitVec 8) (v : Word) (D : Quad Desc) (sel : BitVec 2) (h : s.readyAt t D)
    (hc : choose D v = some sel) (hf : s.params.rspDepth ≤ s.rsp.length) : sizeVerdict t v s = .hold := by
  have hf' : s.freeSlots < 1 := by
    unfold State.freeSlots
    omega
  simp [sizeVerdict, (s.checkTable_eq_ok t D).mpr h, hc, hf']

/-- SIZE on a ready table, with the alternative chosen and a free slot (R89). -/
theorem sizeVerdict_done (s : State) (t : BitVec 8) (v : Word) (D : Quad Desc) (sel : BitVec 2) (h : s.readyAt t D)
    (hc : choose D v = some sel) (hf : s.rsp.length < s.params.rspDepth) : sizeVerdict t v s =
      .done ((s.push [BitVec.ofNat 32 (2 + (D.get sel).width)]).setResult sel (D.get sel).width) := by
  have hf' : ¬ s.freeSlots < 1 := by
    unfold State.freeSlots
    omega
  simp only [sizeVerdict, (s.checkTable_eq_ok t D).mpr h, hc, if_neg hf']

theorem sizeVerdict_error (s : State) (t : BitVec 8) (v : Word) (e : ErrCode) (h : s.checkTable t = .error e) :
    sizeVerdict t v s = .raise e s := by
  simp [sizeVerdict, h]

/-- TBL.WR of legal fields to a table that is there (R100). -/
theorem tblWrVerdict_legal (s : State) (t : BitVec 8) (sel k : BitVec 2) (n : BitVec 6) (p : Word) (T : Table) (d : Desc)
    (hT : s.table? t = some T) (hd : Desc.ofFields k n p = some d) :
    tblWrVerdict t sel k n p s = .done (s.setTable t (T.set sel (some d))) := by
  simp [tblWrVerdict, hT, hd]

theorem tblWrVerdict_tindex (s : State) (t : BitVec 8) (sel k : BitVec 2) (n : BitVec 6) (p : Word)
    (hT : s.table? t = none) : tblWrVerdict t sel k n p s = .raise .tindex s := by
  simp [tblWrVerdict, hT]

theorem tblWrVerdict_desc (s : State) (t : BitVec 8) (sel k : BitVec 2) (n : BitVec 6) (p : Word) (T : Table)
    (hT : s.table? t = some T) (hd : Desc.ofFields k n p = none) : tblWrVerdict t sel k n p s = .raise .desc s := by
  simp [tblWrVerdict, hT, hd]

/-- TBL.RD without two free slots (R101). -/
theorem tblRdVerdict_full (s : State) (t : BitVec 8) (sel : BitVec 2) (T : Table) (hT : s.table? t = some T)
    (hf : s.params.rspDepth < s.rsp.length + 2) : tblRdVerdict t sel s = .hold := by
  have hf' : s.freeSlots < 2 := by
    unfold State.freeSlots
    omega
  simp [tblRdVerdict, hT, hf']

/-- TBL.RD with two free slots (R101). -/
theorem tblRdVerdict_done (s : State) (t : BitVec 8) (sel : BitVec 2) (T : Table) (hT : s.table? t = some T)
    (hf : s.rsp.length + 2 ≤ s.params.rspDepth) : tblRdVerdict t sel s = .done (s.push (entryWords (T.get sel))) := by
  have hf' : ¬ s.freeSlots < 2 := by
    unfold State.freeSlots
    omega
  simp only [tblRdVerdict, hT, if_neg hf']

theorem tblRdVerdict_tindex (s : State) (t : BitVec 8) (sel : BitVec 2) (hT : s.table? t = none) :
    tblRdVerdict t sel s = .raise .tindex s := by
  simp [tblRdVerdict, hT]

/-! ### One view of every command but CLRERR -/

/-- The verdict of a command; CLRERR has none, because it passes the gate. -/
def verdictOf (s : State) : Instr → Verdict
  | .nop => .done s
  | .dec t => decVerdict t s
  | .enc t v => encVerdict t v s
  | .size t v => sizeVerdict t v s
  | .tblWr t sel k n p => tblWrVerdict t sel k n p s
  | .tblRd t sel => tblRdVerdict t sel s
  | .clrerr => .done s

theorem exec_eq_gated (i : Instr) (s : State) (h : i ≠ .clrerr) : exec i s = gated i.format s (verdictOf s i) := by
  cases i <;> first | rfl | exact absurd rfl h

theorem exec_clrerr (s : State) (h : s.err.toNat ≤ 6) : exec .clrerr s = .next (s.clearError.consume .h) := by
  simp [exec, execClrerr, State.reservedErr_of_le s h]

theorem exec_reserved (i : Instr) (s : State) (h : 7 ≤ s.err.toNat) : exec i s = .refused .reservedErrorCode := by
  by_cases hi : i = .clrerr
  · subst hi
    simp [exec, execClrerr, h]
  · rw [exec_eq_gated i s hi, gated_reserved _ _ _ h]

/-- Everything a verdict can be: what each command does when it completes, and with which state it raises. -/
theorem verdictOf_cases (i : Instr) (s : State) :
    verdictOf s i = .hold ∨
    (∃ e, verdictOf s i = .raise e s ∧ e ≠ .inExhausted) ∨
    (∃ t, i = .dec t ∧ s.eos = true ∧ verdictOf s i = .raise .inExhausted s.failInput) ∨
    ((i = .nop ∨ i = .clrerr) ∧ verdictOf s i = .done s) ∨
    (∃ t D, i = .dec t ∧ s.readyAt t D ∧ ¬ s.inputShort D ∧ s.rsp.length < s.params.rspDepth ∧
      verdictOf s i = .done (decDone D s)) ∨
    (∃ t v D sel, i = .enc t v ∧ s.readyAt t D ∧ choose D v = some sel ∧ verdictOf s i =
      .done ((s.appendOut (wireBits D sel ((D.get sel).rawOf v))).setResult sel (D.get sel).width)) ∨
    (∃ t v D sel, i = .size t v ∧ s.readyAt t D ∧ choose D v = some sel ∧ s.rsp.length < s.params.rspDepth ∧
      verdictOf s i = .done ((s.push [BitVec.ofNat 32 (2 + (D.get sel).width)]).setResult sel (D.get sel).width)) ∨
    (∃ t sel k n p T d, i = .tblWr t sel k n p ∧ s.table? t = some T ∧ Desc.ofFields k n p = some d ∧
      verdictOf s i = .done (s.setTable t (T.set sel (some d)))) ∨
    (∃ t sel T, i = .tblRd t sel ∧ s.table? t = some T ∧ s.rsp.length + 2 ≤ s.params.rspDepth ∧
      verdictOf s i = .done (s.push (entryWords (T.get sel)))) := by
  cases i with
  | nop => exact .inr (.inr (.inr (.inl ⟨.inl rfl, rfl⟩)))
  | clrerr => exact .inr (.inr (.inr (.inl ⟨.inr rfl, rfl⟩)))
  | dec t =>
    simp only [show verdictOf s (.dec t) = decVerdict t s from rfl]
    cases hc : s.checkTable t with
    | error e =>
      refine .inr (.inl ⟨e, decVerdict_error s t e hc, ?_⟩)
      rcases s.checkTable_cases t with ⟨h, -⟩ | ⟨_, h, -⟩ | ⟨_, _, h, -⟩ <;> rw [h] at hc <;> cases hc <;> simp
    | ok D =>
      have hr := (s.checkTable_eq_ok t D).mp hc
      by_cases hs : s.inputShort D
      · cases he : s.eos with
        | false => exact .inl (decVerdict_starved s t D hr hs he)
        | true => exact .inr (.inr (.inl ⟨t, rfl, rfl, decVerdict_exhausted s t D hr hs he⟩))
      · rcases Nat.lt_or_ge s.rsp.length s.params.rspDepth with hf | hf
        · exact .inr (.inr (.inr (.inr (.inl ⟨t, D, rfl, hr, hs, hf, decVerdict_done s t D hr hs hf⟩))))
        · exact .inl (decVerdict_full s t D hr hs hf)
  | enc t v =>
    simp only [show verdictOf s (.enc t v) = encVerdict t v s from rfl]
    cases hc : s.checkTable t with
    | error e =>
      refine .inr (.inl ⟨e, encVerdict_error s t v e hc, ?_⟩)
      rcases s.checkTable_cases t with ⟨h, -⟩ | ⟨_, h, -⟩ | ⟨_, _, h, -⟩ <;> rw [h] at hc <;> cases hc <;> simp
    | ok D =>
      have hr := (s.checkTable_eq_ok t D).mp hc
      cases hch : choose D v with
      | none => exact .inr (.inl ⟨.noAlt, encVerdict_noAlt s t v D hr hch, by simp⟩)
      | some sel => exact .inr (.inr (.inr (.inr (.inr (.inl
          ⟨t, v, D, sel, rfl, hr, hch, encVerdict_some s t v D sel hr hch⟩)))))
  | size t v =>
    simp only [show verdictOf s (.size t v) = sizeVerdict t v s from rfl]
    cases hc : s.checkTable t with
    | error e =>
      refine .inr (.inl ⟨e, sizeVerdict_error s t v e hc, ?_⟩)
      rcases s.checkTable_cases t with ⟨h, -⟩ | ⟨_, h, -⟩ | ⟨_, _, h, -⟩ <;> rw [h] at hc <;> cases hc <;> simp
    | ok D =>
      have hr := (s.checkTable_eq_ok t D).mp hc
      cases hch : choose D v with
      | none => exact .inr (.inl ⟨.noAlt, sizeVerdict_noAlt s t v D hr hch, by simp⟩)
      | some sel =>
        rcases Nat.lt_or_ge s.rsp.length s.params.rspDepth with hf | hf
        · exact .inr (.inr (.inr (.inr (.inr (.inr (.inl
            ⟨t, v, D, sel, rfl, hr, hch, hf, sizeVerdict_done s t v D sel hr hch hf⟩))))))
        · exact .inl (sizeVerdict_full s t v D sel hr hch hf)
  | tblWr t sel k n p =>
    cases hT : s.table? t with
    | none => exact .inr (.inl ⟨.tindex, tblWrVerdict_tindex s t sel k n p hT, by simp⟩)
    | some T =>
      cases hd : Desc.ofFields k n p with
      | none => exact .inr (.inl ⟨.desc, tblWrVerdict_desc s t sel k n p T hT hd, by simp⟩)
      | some d => exact .inr (.inr (.inr (.inr (.inr (.inr (.inr (.inl
          ⟨t, sel, k, n, p, T, d, rfl, hT, hd, tblWrVerdict_legal s t sel k n p T d hT hd⟩)))))))
  | tblRd t sel =>
    simp only [show verdictOf s (.tblRd t sel) = tblRdVerdict t sel s from rfl]
    cases hT : s.table? t with
    | none => exact .inr (.inl ⟨.tindex, tblRdVerdict_tindex s t sel hT, by simp⟩)
    | some T =>
      rcases Nat.lt_or_ge s.params.rspDepth (s.rsp.length + 2) with hf | hf
      · exact .inl (tblRdVerdict_full s t sel T hT hf)
      · exact .inr (.inr (.inr (.inr (.inr (.inr (.inr (.inr
          ⟨t, sel, T, rfl, hT, hf, tblRdVerdict_done s t sel T hT hf⟩)))))))

end Sys2Proof.Machine
end

