-- ==== Sys2Proof/Laws/PerInstr.lean ====
section
/-! SUPPORT. Statements made for every command as syntax, one lemma per constructor: the words an encoding has are the words
the framing rule counts (30_encoding.md R73). -/

namespace Sys2Proof.Laws.EncodedLength

/-- The encoding of a command has `Len` of its header as its number of words, 2 exactly for format HP (R72, R73). -/
def Statement (i : Instr) : Prop :=
  (encode i).length = wordLen (header i) ∧ ((encode i).length = 2 ↔ i.format = .hp)

theorem nop : Statement .nop := by
  simp [Statement, encode, header, wordLen_packWord, Instr.format]

theorem dec (t : BitVec 8) : Statement (.dec t) := by
  simp [Statement, encode, header, wordLen_packWord, Instr.format]

theorem enc (t : BitVec 8) (v : Word) : Statement (.enc t v) := by
  simp [Statement, encode, header, wordLen_packWord, Instr.format]

theorem size (t : BitVec 8) (v : Word) : Statement (.size t v) := by
  simp [Statement, encode, header, wordLen_packWord, Instr.format]

theorem tblWr (t : BitVec 8) (s k : BitVec 2) (n : BitVec 6) (p : Word) : Statement (.tblWr t s k n p) := by
  simp [Statement, encode, header, wordLen_packWord, Instr.format]

theorem tblRd (t : BitVec 8) (s : BitVec 2) : Statement (.tblRd t s) := by
  simp [Statement, encode, header, wordLen_packWord, Instr.format]

theorem clrerr : Statement .clrerr := by
  simp [Statement, encode, header, wordLen_packWord, Instr.format]

end Sys2Proof.Laws.EncodedLength
end

