-- ==== Sys2Proof/Laws/Step.lean ====
section
/-! SUPPORT. What the CIC's step and the machine's step can be (20_memory.md R54-R56): one inversion lemma each, from which
invariants follow by cases. -/

namespace Sys2Proof.Machine

/-! ### A word that is taken as a command -/

/-- A command's verdict, or ILLEGAL for words that decode to none (R122). -/
def wordVerdict (w p : Word) (s : State) : Verdict :=
  match decode w p with
  | .ok i => verdictOf s i
  | .error _ => .raise .illegal s

/-- The decoder answers CLRERR for exactly one word (R75). -/
theorem decode_eq_clrerr (w p : Word) : decode w p = .ok .clrerr ↔ w = 0xF0000000#32 := by
  constructor
  · intro h
    rw [decode_fields] at h
    split_ifs at h <;> simp only [reduceCtorEq, Except.ok.injEq] at h
    rename_i h15 hf
    obtain ⟨ht, hs, hk, hn, hr⟩ := hf
    exact word_ext h15 ht hs hk hn hr
  · rintro rfl
    rfl

/-- A decoded command has its word's format (R73). -/
theorem format_of_decode {w p : Word} {i : Instr} (h : decode w p = .ok i) : i.format = formatOf w := by
  rw [decode_fields] at h
  have hw : formatOf w = if opOf w = 2#4 ∨ opOf w = 3#4 ∨ opOf w = 4#4 then .hp else .h := by
    unfold formatOf wordLen
    split <;> simp
  rw [hw]
  split_ifs at h <;> cases h <;> simp_all [Instr.format]

/-- Running words that are not CLRERR: the gate, then the verdict. -/
theorem runCommand_eq_gated (w p : Word) (s : State) (h : w ≠ 0xF0000000#32) :
    runCommand w p s = gated (formatOf w) s (wordVerdict w p s) := by
  unfold runCommand wordVerdict
  cases hd : decode w p with
  | error e => rfl
  | ok i =>
    have hi : i ≠ .clrerr := fun he => h ((decode_eq_clrerr w p).mp (he ▸ hd))
    simp only [exec_eq_gated i s hi, format_of_decode hd]

/-- Running CLRERR. -/
theorem runCommand_clrerr (p : Word) (s : State) : runCommand 0xF0000000#32 p s = execClrerr s := by
  have hd : decode 0xF0000000#32 p = .ok .clrerr := (decode_eq_clrerr _ p).mpr rfl
  simp [runCommand, hd, exec]

/-- Everything running a word can answer when it answers a next state. -/
theorem runCommand_cases {w p : Word} {s u : State} (h : runCommand w p s = .next u) :
    s.err.toNat ≤ 6 ∧
    ((w = 0xF0000000#32 ∧ u = s.clearError.consume .h) ∨
     (w ≠ 0xF0000000#32 ∧ s.err ≠ 0#4 ∧ u = s.consume (formatOf w)) ∨
     (w ≠ 0xF0000000#32 ∧ s.err = 0#4 ∧ u = settle (formatOf w) s (wordVerdict w p s))) := by
  by_cases hw : w = 0xF0000000#32
  · subst hw
    rw [runCommand_clrerr] at h
    unfold execClrerr at h
    split at h
    · cases h
    · rename_i hr
      rw [State.reservedErr_iff] at hr
      cases h
      exact ⟨by omega, .inl ⟨rfl, rfl⟩⟩
  · rw [runCommand_eq_gated w p s hw] at h
    obtain ⟨hr, h | h⟩ := gated_cases h
    · exact ⟨hr, .inr (.inl ⟨hw, h⟩)⟩
    · exact ⟨hr, .inr (.inr ⟨hw, h⟩)⟩

/-! ### The CIC's step -/

/-- Everything the CIC's step can be: no word to take, a framing step, or running a command's words. -/
theorem cicStep_cases (s : State) :
    (s.cmdq = [] ∧ cicStep s = .next s) ∨
    (∃ w rest, s.pend = none ∧ s.cmdq = w :: rest ∧ wordLen w = 2 ∧ cicStep s = .next (frameHeader w rest s)) ∨
    (∃ w rest, s.pend = none ∧ s.cmdq = w :: rest ∧ wordLen w = 1 ∧ cicStep s = runCommand w 0#32 s) ∨
    (∃ w p rest, s.pend = some w ∧ s.cmdq = p :: rest ∧ cicStep s = runCommand w p s) := by
  cases hp : s.pend with
  | none =>
    cases hq : s.cmdq with
    | nil => exact .inl ⟨rfl, by simp [cicStep, hp, hq]⟩
    | cons w rest =>
      rcases wordLen_cases w with hl | hl
      · exact .inr (.inr (.inl ⟨w, rest, rfl, rfl, hl, by simp [cicStep, hp, hq, hl]⟩))
      · exact .inr (.inl ⟨w, rest, rfl, rfl, hl, by simp [cicStep, hp, hq, hl]⟩)
  | some w =>
    cases hq : s.cmdq with
    | nil => exact .inl ⟨rfl, by simp [cicStep, hp, hq]⟩
    | cons p rest => exact .inr (.inr (.inr ⟨w, p, rest, rfl, rfl, by simp [cicStep, hp, hq]⟩))

theorem cicStep_frame (s : State) (w : Word) (rest : List Word) (hp : s.pend = none) (hq : s.cmdq = w :: rest)
    (hl : wordLen w = 2) : cicStep s = .next (frameHeader w rest s) := by
  simp [cicStep, hp, hq, hl]

theorem cicStep_one (s : State) (w : Word) (rest : List Word) (hp : s.pend = none) (hq : s.cmdq = w :: rest)
    (hl : wordLen w = 1) : cicStep s = runCommand w 0#32 s := by
  simp [cicStep, hp, hq, hl]

theorem cicStep_two (s : State) (w p : Word) (rest : List Word) (hp : s.pend = some w) (hq : s.cmdq = p :: rest) :
    cicStep s = runCommand w p s := by
  simp [cicStep, hp, hq]

theorem cicStep_empty (s : State) (hq : s.cmdq = []) : cicStep s = .next s := by
  cases hp : s.pend <;> simp [cicStep, hp, hq]

/-- The CIC never faults: its step is a next state, or the refusal of a reserved error code. -/
theorem cicStep_next (s : State) (h : s.err.toNat ≤ 6) : ∃ u, cicStep s = .next u := by
  have run : ∀ w p, ∃ u, runCommand w p s = .next u := by
    intro w p
    by_cases hw : w = 0xF0000000#32
    · subst hw
      exact ⟨_, by rw [runCommand_clrerr, execClrerr, State.reservedErr_of_le s h]; rfl⟩
    · rw [runCommand_eq_gated w p s hw]
      by_cases he : s.err = 0#4
      · exact ⟨_, by rw [gated_run _ _ _ he, commit_eq]⟩
      · exact ⟨_, gated_discard _ _ _ he h⟩
  rcases cicStep_cases s with ⟨-, hs⟩ | ⟨w, rest, -, -, -, hs⟩ | ⟨w, rest, -, -, -, hs⟩ | ⟨w, p, rest, -, -, hs⟩
  · exact ⟨_, hs⟩
  · exact ⟨_, hs⟩
  · rw [hs]
    exact run w 0#32
  · rw [hs]
    exact run w p

/-! ### The machine's step -/

/-- Everything the machine's step can be: the CIC's turn or the host's (R56). -/
theorem step_cases (s : State) :
    (s.agenda = [] ∧ step s = cicStep s) ∨
    (∃ as, s.agenda = .cic :: as ∧ step s = cicStep (s.withAgenda as)) ∨
    (∃ a as, s.agenda = .host a :: as ∧ step s = hostAct a (s.withAgenda as)) := by
  cases h : s.agenda with
  | nil => exact .inl ⟨rfl, by simp [step, h]⟩
  | cons t as =>
    cases t with
    | cic => exact .inr (.inl ⟨as, rfl, by simp [step, h]⟩)
    | host a => exact .inr (.inr ⟨a, as, rfl, by simp [step, h]⟩)

/-- Everything a host action can do when it has a move (R55). -/
theorem hostAct_cases {a : HostAction} {s u : State} (h : hostAct a s = .next u) :
    (∃ w, a = .pushCmd w ∧ u = s.pushCmd w) ∨
    (∃ bs, a = .pushBits bs ∧ s.eos = false ∧ u = s.pushBits bs) ∨
    (a = .setEos ∧ u = s.setEos) ∨
    (a = .flushIn ∧ u = s.flushIn) ∨
    (∃ w ws, a = .popRsp ∧ s.rsp = w :: ws ∧ u = s.tailRsp.saw (.popped w)) ∨
    (∃ k, a = .takeOut k ∧ k ≤ s.outBits.length ∧ u = (s.dropOut k).saw (.took (s.outBits.take k))) ∨
    (a = .readStatus ∧ s.err.toNat ≤ 6 ∧ u = s.saw (.status s.statusWord)) ∨
    (a = .reset ∧ u = s.resetCic) := by
  cases a with
  | pushCmd w =>
    cases h
    exact .inl ⟨w, rfl, rfl⟩
  | pushBits bs =>
    cases he : s.eos with
    | true => simp [hostAct, hostPushBits, he] at h
    | false =>
      simp only [hostAct, hostPushBits, he, Bool.false_eq_true, if_false] at h
      cases h
      exact .inr (.inl ⟨bs, rfl, rfl, rfl⟩)
  | setEos =>
    cases h
    exact .inr (.inr (.inl ⟨rfl, rfl⟩))
  | flushIn =>
    cases h
    exact .inr (.inr (.inr (.inl ⟨rfl, rfl⟩)))
  | popRsp =>
    cases hq : s.rsp with
    | nil => simp [hostAct, hostPopRsp, hq] at h
    | cons w ws =>
      simp only [hostAct, hostPopRsp, hq] at h
      cases h
      exact .inr (.inr (.inr (.inr (.inl ⟨w, ws, rfl, rfl, rfl⟩))))
  | takeOut k =>
    by_cases hk : s.outBits.length < k
    · simp [hostAct, hostTakeOut, hk] at h
    · simp only [hostAct, hostTakeOut, hk, if_false] at h
      cases h
      exact .inr (.inr (.inr (.inr (.inr (.inl ⟨k, rfl, by omega, rfl⟩)))))
  | readStatus =>
    cases hr : s.reservedErr with
    | true => simp [hostAct, hostReadStatus, hr] at h
    | false =>
      simp only [hostAct, hostReadStatus, hr, Bool.false_eq_true, if_false] at h
      cases h
      rw [Bool.eq_false_iff, ne_eq, State.reservedErr_iff] at hr
      exact .inr (.inr (.inr (.inr (.inr (.inr (.inl ⟨rfl, by omega, rfl⟩))))))
  | reset =>
    cases h
    exact .inr (.inr (.inr (.inr (.inr (.inr (.inr ⟨rfl, rfl⟩))))))

end Sys2Proof.Machine
end

