-- ==== Sys2Proof/Laws/WellFormed.lean ====
section
/-! SUPPORT. Every update of the state keeps the spec's invariants (`State.WF`): one lemma per update, with the condition the
commands check before it. -/

namespace Sys2Proof.Machine

/-- What a well-formed state says of a ready table: its descriptors are legal (R23). -/
theorem State.WF.legal_of_readyAt {s : State} (h : s.WF) {t : BitVec 8} {D : Quad Desc} (hr : s.readyAt t D)
    (sel : BitVec 2) : (D.get sel).isLegal = true := by
  obtain ⟨T, hT, hg⟩ := hr
  exact h.legal T (List.mem_of_getElem? hT) sel _ (hg sel)

theorem State.WF.consume {s : State} (h : s.WF) (f : Format) : (s.consume f).WF where
  params := h.params
  tables := h.tables
  legal := h.legal
  rsp := h.rsp
  err := h.err
  mark := h.mark
  pend := by
    cases f with
    | h => exact h.pend
    | hp => simp
  llen := h.llen

theorem State.WF.raiseError {s : State} (h : s.WF) (e : ErrCode) : (s.raiseError e).WF where
  params := h.params
  tables := h.tables
  legal := h.legal
  rsp := h.rsp
  err := (ErrCode.code_le e).2
  mark := fun _ => rfl
  pend := h.pend
  llen := h.llen

theorem State.WF.clearError {s : State} (h : s.WF) : s.clearError.WF where
  params := h.params
  tables := h.tables
  legal := h.legal
  rsp := h.rsp
  err := Nat.zero_le _
  mark := fun hn => absurd rfl hn
  pend := h.pend
  llen := h.llen

theorem State.WF.failInput {s : State} (h : s.WF) : s.failInput.WF where
  params := h.params
  tables := h.tables
  legal := h.legal
  rsp := h.rsp
  err := h.err
  mark := h.mark
  pend := h.pend
  llen := h.llen

theorem State.WF.dropIn {s : State} (h : s.WF) (n : Nat) : (s.dropIn n).WF where
  params := h.params
  tables := h.tables
  legal := h.legal
  rsp := h.rsp
  err := h.err
  mark := h.mark
  pend := h.pend
  llen := h.llen

theorem State.WF.appendOut {s : State} (h : s.WF) (bs : BitString) : (s.appendOut bs).WF where
  params := h.params
  tables := h.tables
  legal := h.legal
  rsp := h.rsp
  err := h.err
  mark := h.mark
  pend := h.pend
  llen := h.llen

/-- A push with room for its words (R29). -/
theorem State.WF.push {s : State} (h : s.WF) (ws : List Word) (hr : s.rsp.length + ws.length ≤ s.params.rspDepth) :
    (s.push ws).WF where
  params := h.params
  tables := h.tables
  legal := h.legal
  rsp := by simpa using hr
  err := h.err
  mark := h.mark
  pend := h.pend
  llen := h.llen

/-- The result fields of an alternative at most 32 bits wide (R24). -/
theorem State.WF.setResult {s : State} (h : s.WF) (sel : BitVec 2) (w : Nat) (hw : w ≤ 32) : (s.setResult sel w).WF where
  params := h.params
  tables := h.tables
  legal := h.legal
  rsp := h.rsp
  err := h.err
  mark := h.mark
  pend := h.pend
  llen := by
    right
    rw [State.setResult_llen, BitVec.toNat_ofNat, Nat.mod_eq_of_lt (by omega)]
    omega

/-- A table rewritten in one entry with a legal descriptor (R23, R100). -/
theorem State.WF.setEntry {s : State} (h : s.WF) (t : BitVec 8) (T : Table) (sel : BitVec 2) (d : Desc)
    (hT : s.table? t = some T) (hd : d.isLegal = true) : (s.setTable t (T.set sel (some d))).WF where
  params := h.params
  tables := by simpa using h.tables
  legal := by
    intro T' hT' sel' d' hd'
    rcases List.mem_or_eq_of_mem_set hT' with hm | rfl
    · exact h.legal T' hm sel' d' hd'
    · rw [Quad.get_set] at hd'
      split at hd'
      · cases hd'
        exact hd
      · exact h.legal T (List.mem_of_getElem? hT) sel' d' hd'
  rsp := h.rsp
  err := h.err
  mark := h.mark
  pend := h.pend
  llen := h.llen

/-- A 2-word header moved to PEND (R30). -/
theorem State.WF.frameHeader {s : State} (h : s.WF) (w : Word) (ws : List Word) (hl : wordLen w = 2) :
    (frameHeader w ws s).WF where
  params := h.params
  tables := h.tables
  legal := h.legal
  rsp := h.rsp
  err := h.err
  mark := h.mark
  pend := by
    intro v hv
    cases hv
    exact hl
  llen := h.llen

theorem State.WF.withAgenda {s : State} (h : s.WF) (as : List Turn) : (s.withAgenda as).WF where
  params := h.params
  tables := h.tables
  legal := h.legal
  rsp := h.rsp
  err := h.err
  mark := h.mark
  pend := h.pend
  llen := h.llen

/-- The host's Reset of a machine with legal parameters (R37, R145). -/
theorem State.WF.resetCic {s : State} (h : s.WF) : s.resetCic.WF where
  params := h.params
  tables := rfl
  legal := h.params.init_legal
  rsp := Nat.zero_le _
  err := Nat.zero_le _
  mark := fun hn => absurd rfl hn
  pend := by simp
  llen := .inl ⟨rfl, rfl⟩

theorem State.WF.tailRsp {s : State} (h : s.WF) : s.tailRsp.WF where
  params := h.params
  tables := h.tables
  legal := h.legal
  rsp := by
    have := h.rsp
    simp only [State.tailRsp_rsp, List.length_tail, State.tailRsp_params]
    omega
  err := h.err
  mark := h.mark
  pend := h.pend
  llen := h.llen

/-- An update of the streams, CMDQ or the host's record alone keeps the invariants. -/
theorem State.WF.of_same {s u : State} (h : s.WF) (hp : u.params = s.params) (ht : u.tbl = s.tbl) (hr : u.rsp = s.rsp)
    (he : u.err = s.err) (hm : u.faultMark = s.faultMark) (hd : u.pend = s.pend) (hl : u.llen = s.llen)
    (hs : u.lsel = s.lsel) : u.WF where
  params := hp ▸ h.params
  tables := by rw [ht, hp]; exact h.tables
  legal := ht ▸ h.legal
  rsp := by rw [hr, hp]; exact h.rsp
  err := he ▸ h.err
  mark := by rw [he, hm]; exact h.mark
  pend := by rw [hd]; exact h.pend
  llen := by rw [hl, hs]; exact h.llen

end Sys2Proof.Machine
end

