-- ==== Sys2Proof/Tests/Slice0.lean ====
section
/-! SUPPORT. Tests of one step or one function each, their expected results taken from the spec (95_test_vectors.md and the
rules), the smoke test of the assembler's checks, and for every obligation with hypotheses a witness that meets them. -/

namespace Sys2Proof.Tests

open Sys2Proof Sys2Proof.Machine

/-! ### Helpers -/

/-- A bit string written as digits in stream order. -/
def bits (ds : List Nat) : BitString := ds.map (fun d => d == 1)

/-- Table TA of 95_test_vectors.md part 2. -/
def tableA : Quad Desc := ⟨⟨.val, 0, 0⟩, ⟨.val, 0, 1⟩, ⟨.bitsOffset, 4, 2⟩, ⟨.bitsOffset, 12, 18⟩⟩

/-- Table TB. -/
def tableB : Quad Desc := ⟨⟨.val, 0, 0⟩, ⟨.val, 0, 1⟩, ⟨.bits, 8, 0⟩, ⟨.bits, 32, 0⟩⟩

/-- Table TC. -/
def tableC : Quad Desc := ⟨⟨.bits, 4, 0⟩, ⟨.bitsOffset, 4, 0⟩, ⟨.val, 0, 7⟩, ⟨.bits, 4, 0⟩⟩

/-- Table TD. -/
def tableD : Quad Desc := ⟨⟨.val, 0, 0⟩, ⟨.bits, 4, 0⟩, ⟨.bitsOffset, 5, 16⟩, ⟨.bitsOffset, 10, 48⟩⟩

/-- Table TE. -/
def tableE : Quad Desc := ⟨⟨.val, 0, 0xFFFFFFFF⟩, ⟨.bitsOffset, 1, 0xFFFFFFFE⟩, ⟨.bits, 32, 0⟩, ⟨.val, 0, 0⟩⟩

/-- A ready table with these descriptors. -/
def stored (D : Quad Desc) : Table := ⟨some D.e0, some D.e1, some D.e2, some D.e3⟩

/-- A table with no valid entry. -/
def blank : Table := ⟨none, none, none, none⟩

/-- The state after reset, with table 0 ready and tables 1 to 3 invalid. -/
def holding (D : Quad Desc) : State := { State.reset with tbl := [stored D, blank, blank, blank] }

/-- The same, with input bits. -/
def fed (D : Quad Desc) (bs : BitString) (eos : Bool) : State := { holding D with inBits := bs, eos := eos }

/-- The same, with the response queue full (RSP_DEPTH is 8). -/
def full (D : Quad Desc) : State := { holding D with rsp := List.replicate 8 7#32 }

/-- The next state, if there is one. -/
def after (o : Host.Outcome State Fault Refusal) : Option State :=
  match o with
  | .next s => some s
  | .fault _ => none
  | .refused _ => none

/-- The name of a host turn's fault, if it ended in one. -/
def faultOf (o : Host.Outcome State Fault Refusal) : Option Fault :=
  match o with
  | .next _ => none
  | .fault f => some f
  | .refused _ => none

theorem holding_ready (D : Quad Desc) : (holding D).readyAt 0#8 D :=
  ⟨stored D, rfl, fun sel => by rcases sel_cases sel with rfl | rfl | rfl | rfl <;> rfl⟩

/-! ### Assembler lines: every check refuses an ill-formed line (R80) -/

theorem test_wellformed_refuses_table_index :
    [AsmLine.dec 256, .enc 256 0, .size 256 0, .tblWr 256 0 (.val 0), .tblRd 256 0,
      .tblSet 256 (.val 0) (.val 0) (.val 0) (.val 0)].all (fun l => !l.wellFormed) = true := by decide

theorem test_wellformed_refuses_entry_index :
    [AsmLine.tblWr 0 4 (.val 0), .tblRd 0 4].all (fun l => !l.wellFormed) = true := by decide

theorem test_wellformed_refuses_width :
    [AsmLine.tblWr 0 0 (.bits 64), .tblWr 0 0 (.bitsOff 64 0), .tblSet 0 (.val 0) (.bits 64) (.val 0) (.val 0)].all
      (fun l => !l.wellFormed) = true := by decide

theorem test_wellformed_refuses_wide_operand :
    [AsmLine.enc 0 4294967296, .size 0 4294967296, .tblWr 0 0 (.val 4294967296), .tblWr 0 0 (.bitsOff 1 4294967296),
      .word 4294967296, .tblSet 0 (.val 4294967296) (.val 0) (.val 0) (.val 0),
      .tblSet 0 (.val 0) (.val 0) (.bitsOff 1 4294967296) (.val 0),
      .tblSet 0 (.val 0) (.val 0) (.val 0) (.bits 64)].all (fun l => !l.wellFormed) = true := by decide

/-- "Values that fit the field but fail `Legal` are assembled as written" (R80). -/
theorem test_assembler_keeps_illegal_descriptors :
    AsmLine.assemble (.tblWr 3 0 (.bitsOff 2 0xFFFFFFFE)) = some [0x40320800#32, 0xFFFFFFFE#32] := by decide

/-- The words of program P1's TBL.SET (95_test_vectors.md part 3). -/
theorem test_assembler_tbl_set :
    AsmLine.assemble (.tblSet 0 (.val 0) (.val 1) (.bitsOff 4 2) (.bitsOff 12 18)) =
      some [0x40000000#32, 0x00000000#32, 0x40040000#32, 0x00000001#32, 0x400A1000#32, 0x00000002#32,
        0x400E3000#32, 0x00000012#32] := by decide

/-! ### Decoding: words written out from the spec's encodings (95_test_vectors.md 2.5 and part 3) -/

theorem test_decode_nop : decode 0x00000000#32 9#32 = .ok .nop := by rfl
theorem test_decode_dec : decode 0x10200000#32 9#32 = .ok (.dec 2#8) := by rfl
theorem test_decode_enc : decode 0x20100000#32 15#32 = .ok (.enc 1#8 15#32) := by rfl
theorem test_decode_size : decode 0x30100000#32 0x42F#32 = .ok (.size 1#8 1071#32) := by rfl
theorem test_decode_tbl_wr : decode 0x401E2800#32 0x30#32 = .ok (.tblWr 1#8 3#2 2#2 10#6 48#32) := by rfl
theorem test_decode_tbl_wr_reserved_kind : decode 0x4003FC00#32 0#32 = .ok (.tblWr 0#8 0#2 3#2 63#6 0#32) := by rfl
theorem test_decode_tbl_rd : decode 0x501C0000#32 9#32 = .ok (.tblRd 1#8 3#2) := by rfl
theorem test_decode_clrerr : decode 0xF0000000#32 9#32 = .ok .clrerr := by rfl

theorem test_decode_refuses :
    decode 0x00000001#32 0#32 = .error .nonzeroUnused ∧ decode 0x10040000#32 0#32 = .error .nonzeroUnused ∧
    decode 0x10000400#32 0#32 = .error .nonzeroUnused ∧ decode 0x20000400#32 0#32 = .error .nonzeroUnused ∧
    decode 0x40000001#32 0#32 = .error .nonzeroUnused ∧ decode 0x50030000#32 0#32 = .error .nonzeroUnused ∧
    decode 0x60000000#32 0#32 = .error .reservedOp ∧ decode 0x7FFFFFFF#32 0#32 = .error .reservedOp ∧
    decode 0xE0000000#32 0#32 = .error .reservedOp ∧ decode 0xF0000001#32 0#32 = .error .nonzeroUnused :=
  ⟨rfl, rfl, rfl, rfl, rfl, rfl, rfl, rfl, rfl, rfl⟩

/-- Length is a function of OP alone (R73); "still 2 words" for an ill-formed TBL.WR (95_test_vectors.md 2.5). -/
theorem test_length :
    wordLen 0x20000400#32 = 2 ∧ wordLen 0x40000001#32 = 2 ∧ wordLen 0x3FFFFFFF#32 = 2 ∧ wordLen 0x60000000#32 = 1 ∧
    wordLen 0x7FFFFFFF#32 = 1 ∧ wordLen 0x50030000#32 = 1 ∧ wordLen 0xF0000001#32 = 1 := by decide

/-- The host's view of the table's words: the payload of a 2-word command lies above its header. -/
theorem test_decode_table_word :
    decodeTableWord 32 0x20100000 = some (.enc 1#8 0#32) ∧
    decodeTableWord 64 0x0000000520100000 = some (.enc 1#8 5#32) ∧
    decodeTableWord 32 0x60000000 = none := ⟨rfl, rfl, rfl⟩

/-! ### Functions: expected values from 95_test_vectors.md -/

/-- The rows of 2.1 that write bits: table, v, and the bit string of ENC. -/
theorem test_encodings :
    ([(tableA, 0#32, bits [0, 0]), (tableA, 1#32, bits [1, 0]), (tableA, 2#32, bits [0, 1, 0, 0, 0, 0]),
      (tableA, 5#32, bits [0, 1, 1, 1, 0, 0]), (tableA, 17#32, bits [0, 1, 1, 1, 1, 1]),
      (tableA, 300#32, bits [1, 1, 0, 1, 0, 1, 1, 0, 0, 0, 1, 0, 0, 0]),
      (tableB, 0#32, bits [0, 0]), (tableB, 2#32, bits [0, 1, 0, 1, 0, 0, 0, 0, 0, 0]),
      (tableC, 7#32, bits [0, 1]), (tableC, 3#32, bits [0, 0, 1, 1, 0, 0]), (tableC, 15#32, bits [0, 0, 1, 1, 1, 1]),
      (tableD, 1#32, bits [1, 0, 1, 0, 0, 0]), (tableD, 47#32, bits [0, 1, 1, 1, 1, 1, 1]),
      (tableD, 1071#32, bits [1, 1, 1, 1, 1, 1, 1, 1, 1, 1, 1, 1]),
      (tableE, 0#32, bits [1, 1]), (tableE, 0xFFFFFFFE#32, bits [1, 0, 0]), (tableE, 0xFFFFFFFF#32, bits [0, 0])]
      : List (Quad Desc × Word × BitString)).all (fun r =>
        (after (exec (.enc 0#8 r.2.1) (holding r.1))).map (fun u => u.outBits) == some r.2.2) = true := by decide

/-- The 34-bit rows V-TB-5 and V-TB-6. -/
theorem test_wide_encodings :
    (after (exec (.enc 0#8 256#32) (holding tableB))).map (fun u => (u.outBits, u.lsel, u.llen)) =
      some (bits [1, 1] ++ bits [0, 0, 0, 0, 0, 0, 0, 0, 1] ++ List.replicate 23 false, 3#2, 34#6) ∧
    (after (exec (.enc 0#8 0xFFFFFFFF#32) (holding tableB))).map (fun u => u.outBits) =
      some (List.replicate 34 true) := by decide

/-- The byte column of V-TA-7 and V-TB-3 (R44). -/
theorem test_bytes :
    byteView (bits [1, 1, 0, 1, 0, 1, 1, 0, 0, 0, 1, 0, 0, 0]) = [0x6B#8, 0x04#8] ∧
    byteView (bits [0, 1, 0, 1, 0, 0, 0, 0, 0, 0]) = [0x0A#8, 0x00#8] := by decide

/-- The table of 2.3, and the examples of R62. -/
theorem test_legal :
    legal 0#2 0#6 0xFFFFFFFF#32 = true ∧ legal 0#2 1#6 5#32 = false ∧ legal 1#2 0#6 0#32 = false ∧
    legal 1#2 33#6 0#32 = false ∧ legal 1#2 4#6 1#32 = false ∧ legal 1#2 32#6 0#32 = true ∧
    legal 2#2 1#6 0xFFFFFFFE#32 = true ∧ legal 2#2 2#6 0xFFFFFFFE#32 = false ∧ legal 2#2 32#6 0#32 = true ∧
    legal 2#2 32#6 1#32 = false ∧ legal 3#2 0#6 0#32 = false := by decide

/-- The words of 2.4. -/
theorem test_entry_words :
    entryWords none = [0#32, 0#32] ∧ entryWords (some ⟨.val, 0, 0⟩) = [0x80000000#32, 0#32] ∧
    entryWords (some ⟨.val, 0, 0xFFFFFFFF⟩) = [0x80000000#32, 0xFFFFFFFF#32] ∧
    entryWords (some ⟨.bits, 4, 0⟩) = [0x80011000#32, 0#32] ∧
    entryWords (some ⟨.bits, 32, 0⟩) = [0x80018000#32, 0#32] ∧
    entryWords (some ⟨.bitsOffset, 4, 2⟩) = [0x80021000#32, 2#32] ∧
    entryWords (some ⟨.bitsOffset, 10, 48⟩) = [0x80022800#32, 0x30#32] := by decide

/-- The STATUS words of P3 and P4: ERR 5, LSEL 3, LLEN 12 and ERR 4, LSEL 3, LLEN 34. -/
theorem test_status_words :
    { State.reset with err := 5, lsel := 3, llen := 12 }.statusWord = 0x80000C35#32 ∧
    { State.reset with err := 4, lsel := 3, llen := 34 }.statusWord = 0x80002234#32 ∧
    { State.reset with pend := some 0x20000000 }.statusWord = 0#32 := by decide

/-- The column "disjoint?" of part 2. -/
theorem test_disjoint :
    tableA.disjoint = true ∧ tableB.disjoint = false ∧ tableC.disjoint = false ∧ tableD.disjoint = false ∧
    tableE.disjoint = false := by decide

/-! ### One step of each command -/

/-- V-D-1, V-D-2, V-D-3 and V-D-6: the word pushed, the bits left, LSEL and LLEN. -/
theorem test_dec_pushes :
    ([(tableA, bits [0, 1, 1, 1, 0, 0], 5#32, [], 2#2, 6#6), (tableA, bits [0, 0, 1, 1], 0#32, bits [1, 1], 0#2, 2#6),
      (tableB, bits [0, 1, 0, 0, 0, 0, 0, 0, 0, 0], 0#32, [], 2#2, 10#6),
      (tableC, bits [1, 1, 1, 0, 0, 1], 9#32, [], 3#2, 6#6)]
      : List (Quad Desc × BitString × Word × BitString × BitVec 2 × BitVec 6)).all (fun r =>
        (after (exec (.dec 0#8) (fed r.1 r.2.1 true))).map (fun u => (u.rsp, u.inBits, u.lsel, u.llen)) ==
          some ([r.2.2.1], r.2.2.2)) = true := by decide

/-- V-D-7 to V-D-12: the errors, and the holds that change nothing; and the errors come before the wait for a response slot, in
R128's order. -/
theorem test_dec_stops :
    (after (exec (.dec 0#8) (fed tableA (bits [1, 1, 0, 0, 0]) true))).map (fun u => (u.err, u.rsp, u.lsel, u.llen)) =
      some (6#4, [], 0#2, 0#6) ∧
    ([fed tableA (bits [1, 1, 0, 0, 0]) false, fed tableA (bits [1]) false,
      { full tableA with inBits := bits [0, 0], eos := true }] : List State).all
        (fun s => after (exec (.dec 0#8) s) == some s) = true ∧
    (after (exec (.dec 0#8) { fed tableA (bits [0, 0]) true with
      tbl := [(stored tableA).set 3#2 none] })).map (fun u => (u.err, u.inBits, u.rsp)) =
      some (3#4, bits [0, 0], []) ∧
    ([(4#8, 2#4), (1#8, 3#4), (0#8, 6#4)] : List (BitVec 8 × BitVec 4)).all (fun r =>
      (after (exec (.dec r.1) { full tableA with eos := true })).map (fun u => (u.err, u.rsp.length)) == some (r.2, 8))
      = true := by decide

/-- V-TA-9, V-TC-5, V-TD-8: no bit is written and ERR is NO_ALT. -/
theorem test_enc_no_alt :
    ([(tableA, 4114#32), (tableC, 16#32), (tableD, 1072#32)] : List (Quad Desc × Word)).all (fun r =>
      (after (exec (.enc 0#8 r.2) (holding r.1))).map (fun u => (u.err, u.outBits, u.llen)) == some (5#4, [], 0#6))
      = true := by decide

/-- `SIZE 0, 300` under TA pushes 14 and sets LSEL = 3, LLEN = 14 (R89). -/
theorem test_size_pushes_length :
    (after (exec (.size 0#8 300#32) (holding tableA))).map (fun u => (u.rsp, u.lsel, u.llen, u.outBits)) =
      some ([14#32], 3#2, 14#6, []) := by decide

/-- "An erroring SIZE pushes nothing, even when RSP is full", and a SIZE that does not err holds then (R89). -/
theorem test_size_full :
    (after (exec (.size 0#8 4114#32) (full tableA))).map (fun u => (u.err, u.rsp.length)) = some (5#4, 8) ∧
    after (exec (.size 0#8 0#32) (full tableA)) = some (full tableA) := by decide

/-- `TBL.WR 0, 2, BITSOFF 4, 2` sets TBL[0][2] (R100). -/
theorem test_tbl_wr_writes :
    (after (exec (.tblWr 0#8 2#2 2#2 4#6 2#32) State.reset)).map (fun u => (u.tbl, u.err, u.llen)) =
      some ([⟨none, none, some ⟨.bitsOffset, 4, 2⟩, none⟩, blank, blank, blank], 0#4, 0#6) := by decide

/-- A rejected write: DESC, and TINDEX before DESC (95_test_vectors.md 2.3, NUM_TABLES = 4). -/
theorem test_tbl_wr_rejects :
    (after (exec (.tblWr 3#8 0#2 2#2 2#6 0xFFFFFFFE#32) State.reset)).map (fun u => (u.err, u.tbl)) =
      some (4#4, State.reset.tbl) ∧
    (after (exec (.tblWr 4#8 0#2 3#2 0#6 0#32) State.reset)).map (fun u => (u.err, u.tbl)) =
      some (2#4, State.reset.tbl) := by decide

/-- `TBL.RD 0, 2` after the example of R100 pushes 0x80021000 then 0x00000002 (R101). -/
theorem test_tbl_rd_pushes :
    (after (exec (.tblRd 0#8 2#2) (holding tableA))).map (fun u => u.rsp) = some [0x80021000#32, 2#32] ∧
    (after (exec (.tblRd 1#8 2#2) (holding tableA))).map (fun u => u.rsp) = some [0#32, 0#32] := by decide

/-- TBL.RD needs two free slots (R101). -/
theorem test_tbl_rd_holds :
    after (exec (.tblRd 0#8 0#2) { holding tableA with rsp := List.replicate 7 1#32 }) =
      some { holding tableA with rsp := List.replicate 7 1#32 } := by decide

/-- NOP changes nothing but its own word (R110). -/
theorem test_nop :
    after (cicStep { holding tableA with cmdq := [0#32, 5#32] }) = some { holding tableA with cmdq := [5#32] } := by decide

/-- CLRERR with ERR = 5 leaves ERR = 0, with LSEL and LLEN unchanged (95_test_vectors.md 2.5); a non-zero low bit is no CLRERR. -/
theorem test_clrerr :
    after (cicStep { State.reset with err := 5, lsel := 3, llen := 12, cmdq := [0xF0000000#32] }) =
      some { State.reset with lsel := 3, llen := 12 } ∧
    after (cicStep { State.reset with err := 5, cmdq := [0xF0000001#32] }) = some { State.reset with err := 5 } := by decide

/-- P5: the ill-formed ENC takes the next word as its payload and raises ILLEGAL. -/
theorem test_illegal_takes_payload :
    after (cicStep { State.reset with pend := some 0x20000400#32, cmdq := [0x10000000#32, 0x10000000#32] }) =
      some { State.reset with err := 1, faultMark := true, cmdq := [0x10000000#32] } := by decide

/-- The table's words, each run as the first instruction after reset. -/
theorem test_first_step_after_reset :
    [0x00000000, 0x10000000, 0x20000000, 0x30000000, 0x40000000, 0x50000000, 0xF0000000].map (fun w =>
      (after (step (State.reset.withFetchWord 32 w))).map (fun u => (u.err, u.rsp, u.cmdq, u.pend))) =
    [some (0#4, [], [], none), some (3#4, [], [], none), some (3#4, [], [], none), some (3#4, [], [], none),
      some (0#4, [], [], none), some (0#4, [0#32, 0#32], [], none), some (0#4, [], [], none)] := by decide

/-! ### Witnesses: a state and operands that meet the hypotheses of each obligation together -/

theorem test_witness_DecodedWordsAreTheEncodingOfTheCommand :
    decodeWords [0x4003FC00#32, 7#32, 0#32] = .ok (.tblWr 0#8 0#2 3#2 63#6 7#32, [0#32]) := by rfl

/-- The largest operands of every field are assembled, and one more is refused, clause by clause. -/
theorem test_witness_AssemblerEmitsTheSyntaxTable :
    AsmLine.assemble (.dec 255) = some [0x1FF00000#32] ∧
    AsmLine.assemble (.enc 255 0xFFFFFFFF) = some [0x2FF00000#32, 0xFFFFFFFF#32] ∧
    AsmLine.assemble (.tblWr 255 3 (.bitsOff 63 0xFFFFFFFF)) = some [0x4FFEFC00#32, 0xFFFFFFFF#32] ∧
    AsmLine.assemble (.tblRd 255 3) = some [0x5FFC0000#32] ∧ AsmLine.assemble (.enc 256 0) = none ∧
    AsmLine.assemble (.enc 0 4294967296) = none ∧ AsmLine.assemble (.tblWr 256 0 (.val 0)) = none ∧
    AsmLine.assemble (.tblRd 0 4) = none ∧ AsmLine.assemble (.tblWr 0 0 (.bitsOff 64 0)) = none ∧
    AsmLine.assemble (.tblWr 0 0 (.bits 64)) = none ∧ AsmLine.assemble (.word 4294967296) = none ∧
    AsmLine.assemble (.dec 256) = none := by decide

theorem test_witness_PeekedBitsAreTheirSum :
    32 ≤ (fed tableB (List.replicate 32 true) true).inBits.length ∧
    0 ≤ State.reset.inBits.length ∧ peekBits 32 (List.replicate 32 true) = 0xFFFFFFFF := by decide

theorem test_witness_WrittenBitsReadBack : (0xFFFFFFFF < 2 ^ 32) ∧ (0 < 2 ^ 0) := by decide

theorem test_witness_ByteViewPlacesEveryBit : 8 < (bits [0, 0, 0, 0, 0, 0, 0, 0, 1]).length := by decide

/-- One legal descriptor of each kind, at a boundary of its fields. -/
theorem test_witness_LegalDescriptorHasItsWidthAndRange :
    (Desc.mk .val 0 0xFFFFFFFF).isLegal = true ∧ (Desc.mk .bits 32 0).isLegal = true ∧
    (Desc.mk .bitsOffset 1 0xFFFFFFFE).isLegal = true := by decide

/-- The largest raw number and the largest value, under BITSOFF 1, 0xFFFFFFFE. -/
theorem test_witness_CodecArithmeticIsExact :
    (Desc.mk .bitsOffset 1 0xFFFFFFFE).isLegal = true ∧ 1 < 2 ^ (Desc.mk .bitsOffset 1 0xFFFFFFFE).width ∧
    (Desc.mk .bitsOffset 1 0xFFFFFFFE).inRange 0xFFFFFFFF = true := by decide

theorem test_witness_ChoosePicksNarrowestThenEarliest :
    choose tableA 4114#32 = none ∧ choose tableC 3#32 = some 0#2 ∧ choose tableE 0xFFFFFFFE#32 = some 1#2 := by decide

theorem test_witness_InfoWordHoldsKindAndWidth :
    (Desc.mk .val 0 7).isLegal = true ∧ (Desc.mk .val 0 7).kind = .val ∧ (Desc.mk .bits 32 0).kind = .bits ∧
    (Desc.mk .bitsOffset 10 48).kind = .bitsOffset := by decide

/-- The clauses: a DEC on the agenda's turn of the CIC, a 2-word header and its payload with an empty agenda, an empty CMDQ, and a
turn of the host. -/
theorem test_witness_StepRunsTheDecodedCommand :
    ({ State.reset with agenda := [.cic], cmdq := [0x10000000#32] }.agenda = .cic :: [] ∧
      { State.reset with agenda := [.cic], cmdq := [0x10000000#32] }.pend = none ∧
      { State.reset with agenda := [.cic], cmdq := [0x10000000#32] }.cmdq = 0x10000000#32 :: [] ∧
      (0x10000000#32).extractLsb' 28 4 ∉ [2#4, 3#4, 4#4] ∧ decode 0x10000000#32 0#32 = .ok (.dec 0#8)) ∧
    ({ State.reset with cmdq := [0x40000000#32] }.agenda = [] ∧
      { State.reset with cmdq := [0x40000000#32] }.cmdq = 0x40000000#32 :: [] ∧
      (0x40000000#32).extractLsb' 28 4 ∈ [2#4, 3#4, 4#4]) ∧
    ({ State.reset with pend := some 0x20000000#32, cmdq := [5#32] }.pend = some 0x20000000#32 ∧
      { State.reset with pend := some 0x20000000#32, cmdq := [5#32] }.cmdq = 5#32 :: [] ∧
      decode 0x20000000#32 5#32 = .ok (.enc 0#8 5#32)) ∧
    State.reset.cmdq = [] ∧ { State.reset with agenda := [.host .reset] }.agenda = .host .reset :: [] :=
  ⟨⟨rfl, rfl, rfl, by decide, rfl⟩, ⟨rfl, rfl, by decide⟩, ⟨rfl, rfl, rfl⟩, rfl, rfl⟩

/-- A reserved opcode at each end of its range and an ill-formed CLRERR at the head of CMDQ, and an ill-formed ENC in PEND with
its payload. -/
theorem test_witness_IllegalHeaderRaisesIllegal :
    (∀ w ∈ [0x60000000#32, 0xE0000000#32, 0xF0000001#32], illegalHeader w ∧ w.extractLsb' 28 4 ∉ [2#4, 3#4, 4#4] ∧
      { State.reset with cmdq := [w] }.err = 0#4 ∧ { State.reset with cmdq := [w] }.pend = none ∧
      { State.reset with cmdq := [w] }.cmdq = w :: []) ∧
    illegalHeader 0x20000400#32 ∧ (0x20000400#32).extractLsb' 28 4 ∈ [2#4, 3#4, 4#4] ∧
    { State.reset with pend := some 0x20000400#32, cmdq := [5#32] }.pend = some 0x20000400#32 ∧
    { State.reset with pend := some 0x20000400#32, cmdq := [5#32] }.cmdq = 5#32 :: [] := by
  refine ⟨?_, .inr (.inr (.inr (.inl ⟨by decide, by decide⟩))), by decide, rfl, rfl⟩
  intro w hw
  simp only [List.mem_cons, List.not_mem_nil, or_false] at hw
  rcases hw with rfl | rfl | rfl
  · exact ⟨.inl (by decide), by decide, rfl, rfl, rfl⟩
  · exact ⟨.inl (by decide), by decide, rfl, rfl, rfl⟩
  · exact ⟨.inr (.inr (.inr (.inr (.inr (.inr (.inr ⟨by decide, by decide⟩)))))), by decide, rfl, rfl, rfl⟩

/-- The smallest and the largest error code; an ill-formed CLRERR, a 2-word header, the same with its payload, and CLRERR. -/
theorem test_witness_DiscardedCommandOnlyLosesItsWords :
    (∀ e ∈ [1#4, 6#4], ({ State.reset with err := e, cmdq := [0xF0000001#32] }.err ≠ 0#4 ∧
      { State.reset with err := e, cmdq := [0xF0000001#32] }.err.toNat ≤ 6)) ∧
    ((0xF0000001#32).extractLsb' 28 4 ∉ [2#4, 3#4, 4#4] ∧ 0xF0000001#32 ≠ 0xF0000000#32) ∧
    ({ State.reset with err := 6, cmdq := [0x20000000#32] }.pend = none ∧
      { State.reset with err := 6, cmdq := [0x20000000#32] }.cmdq = 0x20000000#32 :: [] ∧
      (0x20000000#32).extractLsb' 28 4 ∈ [2#4, 3#4, 4#4]) ∧
    ({ State.reset with err := 1, pend := some 0x40000000#32, cmdq := [5#32] }.pend = some 0x40000000#32 ∧
      (0x40000000#32).extractLsb' 28 4 ∈ [2#4, 3#4, 4#4]) ∧
    { State.reset with err := 1, cmdq := [0xF0000000#32] }.cmdq = 0xF0000000#32 :: [] := by
  refine ⟨by decide, by decide, ⟨rfl, rfl, by decide⟩, ⟨rfl, by decide⟩, rfl⟩

theorem test_witness_ReservedErrorCodeIsRefused :
    7 ≤ { State.reset with err := 7 }.err.toNat ∧ 7 ≤ { State.reset with err := 15 }.err.toNat := by decide

/-- Each wait of R54 with a word to consume and ERR = 0, and a command that does not wait. -/
theorem test_witness_CommandHoldsExactlyWhenItWaits :
    State.waits { fed tableA (bits [1]) false with cmdq := [0x10000000#32] } (.dec 0#8) ∧
    State.waits { full tableA with inBits := bits [0, 0], cmdq := [0x10000000#32] } (.dec 0#8) ∧
    State.waits { full tableA with cmdq := [0#32] } (.size 0#8 0#32) ∧
    State.waits { full tableA with cmdq := [0x50000000#32] } (.tblRd 0#8 0#2) ∧
    ¬ State.waits { full tableA with cmdq := [0#32] } .nop ∧
    { full tableA with cmdq := [0#32] }.err = 0#4 ∧ { full tableA with cmdq := [0#32] }.cmdq ≠ [] := by
  refine ⟨⟨tableA, holding_ready tableA, .inl ⟨.inl (by decide), rfl⟩⟩, ⟨tableA, holding_ready tableA, .inr ⟨?_, by decide⟩⟩,
    ⟨tableA, 0#2, holding_ready tableA, by decide, by decide⟩, ⟨by decide, by decide⟩, fun h => h, rfl, by decide⟩
  unfold State.inputShort
  decide

/-- An idle state, a header without its payload, and a held command. -/
theorem test_witness_IdleMeansNothingQueuedOrHeld :
    State.reset.idle = true ∧ { State.reset with pend := some 0x20000000#32 }.pend ≠ none ∧
    { fed tableA (bits [1]) false with cmdq := [0x10000000#32] }.held = true := by decide

theorem test_witness_EndedRunIsCompleteOrStuck :
    State.reset.complete = true ∧ { State.reset with pend := some 0x20000000#32 }.stuck = true ∧
    { fed tableA (bits [1]) false with cmdq := [0x10000000#32] }.stuck = true := by decide

/-- A 1-word and a 2-word command. -/
theorem test_witness_PlacedCommandRunsOnTheNextStep :
    (decodeTableWord 32 0x1FF00000 = some (.dec 255#8) ∧ formatOf (tableHeader 32 0x1FF00000) = .h) ∧
    (decodeTableWord 64 0x000000054003FC00 = some (.tblWr 0#8 0#2 3#2 63#6 5#32) ∧
      formatOf (tableHeader 64 0x000000054003FC00) = .hp) := ⟨⟨rfl, rfl⟩, rfl, rfl⟩

theorem test_witness_NopOnlyConsumesItsWord :
    State.reset.err.toNat ≤ 6 ∧ { State.reset with err := 6 }.err.toNat ≤ 6 := by decide

theorem test_witness_ClrerrOnlyClearsErr :
    State.reset.err.toNat ≤ 6 ∧ { State.reset with err := 6 }.err.toNat ≤ 6 := by decide

/-- A literal, and raw bits with an offset (V-D-1) with bits left over. -/
theorem test_witness_DecPushesTheValueItReads :
    (fed tableA (bits [1, 0, 1]) true).err = 0#4 ∧ (fed tableA (bits [1, 0, 1]) true).readyAt 0#8 tableA ∧
    (fed tableA (bits [1, 0, 1]) true).inBits = [(1#2).getLsbD 0, (1#2).getLsbD 1] ++ [] ++ [true] ∧
    ([] : BitString).length = (tableA.get 1#2).width ∧
    (fed tableA (bits [0, 1, 1, 1, 0, 0, 1]) false).inBits =
      [(2#2).getLsbD 0, (2#2).getLsbD 1] ++ bits [1, 1, 0, 0] ++ [true] ∧
    (bits [1, 1, 0, 0]).length = (tableA.get 2#2).width ∧
    (holding tableA).rsp.length < (holding tableA).params.rspDepth :=
  ⟨rfl, holding_ready tableA, rfl, rfl, rfl, rfl, by decide⟩

/-- No bit at all, and a selector whose raw bits are missing (V-D-7, V-D-9). -/
theorem test_witness_DecRaisesInputExhausted :
    (fed tableA [] true).err = 0#4 ∧ (fed tableA [] true).readyAt 0#8 tableA ∧ (fed tableA [] true).inputShort tableA ∧
    (fed tableA (bits [1, 1, 0, 0, 0]) true).inputShort tableA ∧ (fed tableA [] true).eos = true :=
  ⟨rfl, holding_ready tableA, .inl (by decide), .inr (by decide), rfl⟩

/-- A tie of three alternatives (V-TC-2), and the narrowest at a higher selector (V-TE-3). -/
theorem test_witness_EncAppendsSelectorAndRawBits :
    (holding tableC).err = 0#4 ∧ (holding tableC).readyAt 0#8 tableC ∧ (tableC.get 0#2).inRange 3#32 = true ∧
    (∀ sel', (tableC.get sel').inRange 3#32 = true → (tableC.get 0#2).width < (tableC.get sel').width ∨
      ((tableC.get 0#2).width = (tableC.get sel').width ∧ (0#2).toNat ≤ sel'.toNat)) ∧
    (∀ sel', (tableE.get sel').inRange 0xFFFFFFFE#32 = true → (tableE.get 1#2).width < (tableE.get sel').width ∨
      ((tableE.get 1#2).width = (tableE.get sel').width ∧ (1#2).toNat ≤ sel'.toNat)) :=
  ⟨rfl, holding_ready tableC, by decide, by decide, by decide⟩

theorem test_witness_SizePushesTheEncodedLength :
    (holding tableA).err = 0#4 ∧ (holding tableA).readyAt 0#8 tableA ∧ (tableA.get 3#2).inRange 4113#32 = true ∧
    (∀ sel', (tableA.get sel').inRange 4113#32 = true → (tableA.get 3#2).width < (tableA.get sel').width ∨
      ((tableA.get 3#2).width = (tableA.get sel').width ∧ (3#2).toNat ≤ sel'.toNat)) ∧
    { holding tableA with rsp := List.replicate 7 0#32 }.rsp.length < (holding tableA).params.rspDepth :=
  ⟨rfl, holding_ready tableA, by decide, by decide, by decide⟩

theorem test_witness_ValueInNoRangeRaisesNoAlt :
    (full tableA).err = 0#4 ∧ (full tableA).readyAt 0#8 tableA ∧ choose tableA 4114#32 = none :=
  ⟨rfl, holding_ready tableA, by decide⟩

/-- t = NUM_TABLES and t = 255. -/
theorem test_witness_TableIndexOutOfRangeRaisesTindex :
    State.reset.err = 0#4 ∧ State.reset.numTables ≤ (4#8).toNat ∧ State.reset.numTables ≤ (255#8).toNat ∧
    ¬ State.reset.numTables ≤ (3#8).toNat := by decide

theorem test_witness_InvalidEntryRaisesTableInvalid :
    State.reset.err = 0#4 ∧ 
    entryAt { State.reset with tbl := [(stored tableA).set 3#2 none] }.tbl 0#8 3#2 = some none := by decide

/-- A state where ENC completes, one where it errs, and a full RSP. -/
theorem test_witness_SizeAgreesWithEnc :
    (holding tableA).err.toNat ≤ 6 ∧ (holding tableA).rsp.length < (holding tableA).params.rspDepth ∧
    (full tableA).params.rspDepth ≤ (full tableA).rsp.length ∧
    (after (exec (.enc 0#8 5#32) (full tableA))).map (fun u => u.err) = some 0#4 ∧
    (after (exec (.enc 0#8 4114#32) (full tableA))).map (fun u => u.err) = some 5#4 := by decide

theorem test_witness_DecReadsBackWhatEncWrote :
    (holding tableD).err = 0#4 ∧ (holding tableD).readyAt 0#8 tableD ∧ (∀ a, (tableD.get a).isLegal = true) ∧
    choose tableD 1071#32 = some 3#2 ∧ (fed tableD (List.replicate 12 true) true).inBits = List.replicate 12 true ++ [] :=
  ⟨rfl, holding_ready tableD, by decide, by decide, rfl⟩

theorem test_witness_DisjointTableReencodesTheSameBits :
    (fed tableA (bits [0, 1, 1, 1, 1, 1]) true).err = 0#4 ∧
    (fed tableA (bits [0, 1, 1, 1, 1, 1]) true).readyAt 0#8 tableA ∧ (∀ a, (tableA.get a).isLegal = true) ∧
    tableA.disjoint = true ∧ 15 < 2 ^ (tableA.get 2#2).width ∧
    (fed tableA (bits [0, 1, 1, 1, 1, 1]) true).inBits = wireBits tableA 2#2 15 ++ [] ∧
    (holding tableA).rsp.length < (holding tableA).params.rspDepth :=
  ⟨rfl, holding_ready tableA, by decide, by decide, by decide, by decide, by decide⟩

theorem test_witness_BitsAndBitsOffsetZeroAreAlike :
    (holding tableC).table? 0#8 = some (stored tableC) ∧
    (after (exec (.enc 0#8 3#32)
      ((holding tableC).setTable 0#8 ((stored tableC).set 0#2 (some ⟨.bits, 4, 0⟩))))).isSome = true := by decide

/-- One legal form of each kind, at the boundaries of n and P. -/
theorem test_witness_TblWrWritesExactlyOneEntry :
    State.reset.err = 0#4 ∧ (3#8).toNat < State.reset.numTables ∧ (0#2 = 0#2 ∧ 0#6 = 0#6) ∧
    (1 ≤ (32#6).toNat ∧ (32#6).toNat ≤ 32) ∧
    (1 ≤ (1#6).toNat ∧ (1#6).toNat ≤ 32 ∧ (0xFFFFFFFE#32).toNat + 2 ^ (1#6).toNat - 1 ≤ 2 ^ 32 - 1) := by decide

/-- The four ways to fail of R62, at their boundaries. -/
theorem test_witness_IllegalDescriptorRaisesDesc :
    State.reset.err = 0#4 ∧ (0#8).toNat < State.reset.numTables ∧
    ([(3#2, 0#6, 0#32), (0#2, 1#6, 5#32), (1#2, 33#6, 0#32), (1#2, 4#6, 1#32), (2#2, 0#6, 0#32), (2#2, 32#6, 1#32)]
      : List (BitVec 2 × BitVec 6 × Word)).all (fun f => !decide
        ((f.1 = 0#2 ∧ f.2.1 = 0#6) ∨ (f.1 = 1#2 ∧ 1 ≤ f.2.1.toNat ∧ f.2.1.toNat ≤ 32 ∧ f.2.2 = 0#32) ∨
        (f.1 = 2#2 ∧ 1 ≤ f.2.1.toNat ∧ f.2.1.toNat ≤ 32 ∧ f.2.2.toNat + 2 ^ f.2.1.toNat - 1 ≤ 2 ^ 32 - 1))) = true := by
  decide

/-- Exactly two free slots; a valid and an invalid entry. -/
theorem test_witness_TblRdPushesInfoAndParam :
    { holding tableA with rsp := List.replicate 6 0#32 }.err = 0#4 ∧
    { holding tableA with rsp := List.replicate 6 0#32 }.rsp.length + 2 ≤ (holding tableA).params.rspDepth ∧
    entryAt (holding tableA).tbl 0#8 3#2 = some (some ⟨.bitsOffset, 12, 18⟩) ∧
    entryAt (holding tableA).tbl 3#8 0#2 = some none := by decide

/-- The state in which `TBL.WR 0, 2, BITSOFF 4, 2` is framed and its payload and `TBL.RD 0, 2` stand in CMDQ (R100, R101). -/
def framedWrite : State := { State.reset with pend := some 0x400A1000#32, cmdq := [2#32, 0x50080000#32] }

theorem test_witness_TableWriteIsVisibleToTheNextRead :
    framedWrite.err = 0#4 ∧ (0#8).toNat < framedWrite.numTables ∧ legal 2#2 4#6 2#32 = true ∧
    framedWrite.rsp.length + 2 ≤ framedWrite.params.rspDepth ∧
    framedWrite.pend = some (header (.tblWr 0#8 2#2 2#2 4#6 2#32)) ∧
    framedWrite.cmdq = 2#32 :: header (.tblRd 0#8 2#2) :: [] := by decide

/-- A word that meets the gate at each end of the codes, a word that is no command, and for DEC every case of its list: no table,
an invalid table, short input with EOS = 1 and RSP full, short input with EOS = 0, and input enough with RSP full. -/
theorem test_witness_FirstErrorOfThePriorityListIsRaised :
    (∀ e ∈ [1#4, 6#4], e ≠ 0#4 ∧ e.toNat ≤ 6) ∧ 0xF0000001#32 ≠ 0xF0000000#32 ∧ illegalHeader 0x60000000#32 ∧
    State.reset.err = 0#4 ∧ State.reset.table? 4#8 = none ∧ State.reset.table? 3#8 = some blank ∧ blank.ready? = none ∧
    { full tableA with eos := true }.err = 0#4 ∧ { full tableA with eos := true }.table? 0#8 = some (stored tableA) ∧
    (stored tableA).ready? = some tableA ∧
    ({ full tableA with eos := true }.inputShort tableA ∧ { full tableA with eos := true }.eos = true) ∧
    ¬ ((full tableA).inputShort tableA ∧ (full tableA).eos = true) ∧
    ¬ ({ full tableA with eos := true, inBits := bits [0, 0] }.inputShort tableA ∧
      { full tableA with eos := true, inBits := bits [0, 0] }.eos = true) := by
  refine ⟨by decide, by decide, .inl (by decide), rfl, rfl, rfl, rfl, rfl, rfl, rfl, ⟨.inl (by decide), rfl⟩, ?_, ?_⟩
  · exact fun h => nomatch h.2
  · unfold State.inputShort
    decide

theorem test_witness_ErrorEntryChangesOnlyErr :
    State.reset.err = 0#4 ∧ (after (exec (.enc 0#8 5#32) State.reset)).map (fun u => u.err != 0#4) = some true ∧
    illegalHeader 0x40000001#32 := by
  unfold illegalHeader
  decide

/-- The three writers of ERR: an error, CLRERR, and the host's Reset. -/
theorem test_witness_ErrHasOnlyThreeWriters :
    (after (step { State.reset with cmdq := [0x10000000#32] })).map (fun u => u.err) = some 3#4 ∧
    (after (step { State.reset with err := 3, cmdq := [0xF0000000#32] })).map (fun u => u.err) = some 0#4 ∧
    (after (step { State.reset with err := 3, agenda := [.host .reset] })).map (fun u => u.err) = some 0#4 := by decide

/-- A codec command that completes, and commands that leave LSEL and LLEN. -/
theorem test_witness_OnlyASuccessfulCodecCommandSetsLselAndLlen :
    (after (exec (.enc 0#8 5#32) (holding tableA))).map (fun u => (u.err, u.lsel)) = some (0#4, 2#2) ∧
    (holding tableA).err = 0#4 ∧ ¬ (holding tableA).waits (.enc 0#8 5#32) ∧ (holding tableA).readyAt 0#8 tableA ∧
    (after (exec (.dec 1#8) (holding tableA))).map (fun u => u.err) = some 3#4 ∧
    (after (exec (.tblRd 0#8 0#2) (holding tableA))).isSome = true :=
  ⟨by decide, rfl, fun h => h, holding_ready tableA, by decide, by decide⟩

/-- A step from a marked state by CLRERR, and a step that raises an error. -/
theorem test_witness_FaultMarkIsSetAndNeverCleared :
    (after (step { State.reset with err := 3, faultMark := true, cmdq := [0xF0000000#32] })).map (fun u => u.faultMark) =
      some true ∧
    (after (step { State.reset with cmdq := [0x60000000#32] })).map (fun u => (u.err, u.faultMark)) = some (1#4, true) := by
  decide

/-- A state for each clause that has a condition. -/
theorem test_witness_HostActionsHaveTheirEffects :
    (fed tableA [] false).eos = false ∧ faultOf (hostAct (.pushBits [true]) (fed tableA [] true)) = some .pushBitsAfterEos ∧
    (full tableA).rsp = 7#32 :: List.replicate 7 7#32 ∧ faultOf (hostAct .popRsp State.reset) = some .popRspEmpty ∧
    { State.reset with outBits := bits [0, 1, 1] }.outBits = bits [0, 1] ++ bits [1] ∧
    faultOf (hostAct (.takeOut 1) State.reset) = some .takeOutTooMany ∧ { State.reset with err := 6 }.err.toNat ≤ 6 := by
  decide

/-- DEC completes while the host pops a response, and while it pushes bits. -/
theorem test_witness_CicStepCommutesWithHostActions :
    (after (cicStep { fed tableA (bits [0, 0]) false with rsp := [9#32], cmdq := [0x10000000#32] })).map
      (fun u => decide (u ≠ { fed tableA (bits [0, 0]) false with rsp := [9#32], cmdq := [0x10000000#32] })) = some true ∧
    (after (hostAct .popRsp { fed tableA (bits [0, 0]) false with rsp := [9#32], cmdq := [0x10000000#32] })).isSome = true ∧
    (after (hostAct (.pushBits [true])
      { fed tableA (bits [0, 0]) false with rsp := [9#32], cmdq := [0x10000000#32] })).isSome = true ∧
    HostAction.popRsp ≠ .flushIn ∧ HostAction.popRsp ≠ .reset ∧ HostAction.popRsp ≠ .readStatus := by decide

theorem reference_wf : Params.reference.WF where
  tables_pos := by decide
  tables_le := by decide
  depth := by decide
  init_legal := by
    intro T hT sel d h
    rw [show T = blank from List.eq_of_mem_replicate hT] at h
    rcases sel_cases sel with rfl | rfl | rfl | rfl <;> cases h

/-- A well-formed state with a ready table. -/
theorem holding_wf (D : Quad Desc) (hD : ∀ a, (D.get a).isLegal = true) : (holding D).WF where
  params := reference_wf
  tables := rfl
  legal := by
    intro T hT sel d h
    rcases List.mem_cons.mp hT with rfl | hT
    · have hs := hD sel
      rcases sel_cases sel with rfl | rfl | rfl | rfl <;> cases h <;> exact hs
    · rw [show T = blank from List.eq_of_mem_replicate (n := 3) hT] at h
      rcases sel_cases sel with rfl | rfl | rfl | rfl <;> cases h
  rsp := Nat.zero_le _
  err := Nat.zero_le _
  mark := fun h => absurd rfl h
  pend := fun _ h => nomatch h
  llen := .inl ⟨rfl, rfl⟩

theorem test_witness_StepKeepsTheStateWellFormed :
    (holding tableA).WF ∧ (after (step (holding tableA))).isSome = true :=
  ⟨holding_wf tableA (by decide), by decide⟩

theorem test_witness_ResetStateIsWellFormed : Params.reference.WF := reference_wf

theorem test_witness_ReadyTableStaysReadyUntilReset :
    (holding tableA).WF ∧ (after (step (holding tableA))).isSome = true ∧
    (∀ as, (holding tableA).agenda ≠ .host .reset :: as) ∧
    entryAt (holding tableA).tbl 0#8 2#2 = some (some ⟨.bitsOffset, 4, 2⟩) :=
  ⟨holding_wf tableA (by decide), by decide, fun as => (List.cons_ne_nil _ as).symm, by decide⟩

/-- Each of the three completes, and each errs on a table that is not ready. -/
theorem test_witness_CodecCommandsLeaveTheRestAlone :
    ([.dec 0#8, .enc 0#8 5#32, .size 0#8 5#32] : List Instr).all
      (fun i => (after (exec i (fed tableA (bits [0, 0]) true))).isSome) = true ∧
    ([.dec 1#8, .enc 1#8 5#32, .size 1#8 5#32] : List Instr).all
      (fun i => (after (exec i (holding tableA))).any (fun u => u.err == 3#4)) = true := by decide

theorem test_witness_TableCommandsLeaveTheRestAlone :
    (after (exec (.tblWr 3#8 3#2 1#2 32#6 0#32) (holding tableA))).isSome = true ∧
    (after (exec (.tblRd 3#8 3#2) (holding tableA))).isSome = true := by decide

/-- The longest ENC (34 bits), a TBL.RD (two words), and a well-formed state. -/
theorem test_witness_CicOnlyAppendsAndConsumes :
    (after (cicStep { holding tableB with pend := some 0x20000000#32, cmdq := [0xFFFFFFFF#32] })).map
      (fun u => u.outBits.length) = some 34 ∧
    (after (cicStep { holding tableB with cmdq := [0x50000000#32] })).map (fun u => u.rsp.length) = some 2 ∧
    (holding tableB).WF ∧ State.WF { holding tableB with pend := some 0x20000000#32, cmdq := [0xFFFFFFFF#32] } := by
  have h := holding_wf tableB (by decide)
  exact ⟨by decide, by decide, h, { h with pend := fun w hw => by cases hw; rfl }⟩

end Sys2Proof.Tests
end

/-! SUPPORT. Every step keeps the spec's invariants (`State.WF`): from the verdict of a command through the gate and the CIC's
step to the machine's step, whoever has the turn (20_memory.md R54-R56). -/

namespace Sys2Proof

/-- Fields that make a descriptor make a legal one (R62, R100). -/
theorem Desc.isLegal_of_ofFields {k : BitVec 2} {n : BitVec 6} {p : Word} {d : Desc} (h : Desc.ofFields k n p = some d) :
    d.isLegal = true := by
  by_cases hl : legal k n p = true
  · obtain ⟨d', hd', -, -, -, hleg⟩ := Desc.ofFields_of_legal k n p hl
    cases hd'.symm.trans h
    exact hleg
  · cases (Desc.ofFields_of_not_legal k n p hl).symm.trans h

end Sys2Proof

namespace Sys2Proof.Machine

/-- TBL.RD pushes two words, whatever the entry (R101). -/
@[simp] theorem entryWords_length (e : Entry) : (entryWords e).length = 2 := by
  cases e <;> rfl

/-- One word pushed into a free slot (R29). -/
theorem State.WF.push_one {s : State} (h : s.WF) (w : Word) (hf : s.rsp.length < s.params.rspDepth) : (s.push [w]).WF :=
  h.push [w] hf

/-! ### The verdict of a command -/

/-- The state a verdict carries obeys the spec's invariants; a hold carries none. -/
def Verdict.Sound : Verdict → Prop
  | .done t => t.WF
  | .raise _ t => t.WF
  | .hold => True

/-- An alternative of a ready table of a well-formed state is at most 32 bits wide (R6, R23). -/
theorem State.WF.width_le {s : State} (h : s.WF) {t : BitVec 8} {D : Quad Desc} (hr : s.readyAt t D) (sel : BitVec 2) :
    (D.get sel).width ≤ 32 :=
  (D.get sel).width_le_32 (h.legal_of_readyAt hr sel)

/-- A DEC that completes needs a ready table and one free slot (R87). -/
theorem State.WF.decDone {s : State} (h : s.WF) {t : BitVec 8} {D : Quad Desc} (hr : s.readyAt t D)
    (hf : s.rsp.length < s.params.rspDepth) : (decDone D s).WF :=
  ((h.dropIn _).push_one _ hf).setResult _ _ (h.width_le hr _)

theorem State.WF.verdictOf {s : State} (h : s.WF) (i : Instr) : (verdictOf s i).Sound := by
  rcases verdictOf_cases i s with hv | ⟨e, hv, -⟩ | ⟨t, -, -, hv⟩ | ⟨-, hv⟩ | ⟨t, D, -, hr, -, hf, hv⟩ |
    ⟨t, v, D, sel, -, hr, -, hv⟩ | ⟨t, v, D, sel, -, hr, -, hf, hv⟩ | ⟨t, sel, k, n, p, T, d, -, hT, hd, hv⟩ |
    ⟨t, sel, T, -, -, hf, hv⟩ <;> rw [hv]
  · trivial
  · exact h
  · exact h.failInput
  · exact h
  · exact h.decDone hr hf
  · exact (h.appendOut _).setResult _ _ (h.width_le hr sel)
  · exact (h.push_one _ hf).setResult _ _ (h.width_le hr sel)
  · exact h.setEntry t T sel d hT (Desc.isLegal_of_ofFields hd)
  · exact h.push _ (by simpa using hf)

theorem State.WF.wordVerdict {s : State} (h : s.WF) (w p : Word) : (wordVerdict w p s).Sound := by
  unfold Machine.wordVerdict
  cases decode w p with
  | ok i => exact h.verdictOf i
  | error _ => exact h

theorem State.WF.settle {s : State} (h : s.WF) (f : Format) {v : Verdict} (hv : v.Sound) : (settle f s v).WF := by
  cases v with
  | done t => exact State.WF.consume hv f
  | raise e t => exact (State.WF.raiseError hv e).consume f
  | hold => exact h

/-! ### The turns -/

theorem State.WF.runCommand {s u : State} (h : s.WF) {w p : Word} (hu : runCommand w p s = .next u) : u.WF := by
  obtain ⟨-, ⟨-, rfl⟩ | ⟨-, -, rfl⟩ | ⟨-, -, rfl⟩⟩ := runCommand_cases hu
  · exact h.clearError.consume .h
  · exact h.consume _
  · exact h.settle _ (h.wordVerdict w p)

theorem State.WF.cicStep {s u : State} (h : s.WF) (hu : cicStep s = .next u) : u.WF := by
  rcases cicStep_cases s with ⟨-, hs⟩ | ⟨w, rest, -, -, hl, hs⟩ | ⟨w, rest, -, -, -, hs⟩ | ⟨w, p, rest, -, -, hs⟩ <;>
    rw [hs] at hu
  · cases hu
    exact h
  · cases hu
    exact h.frameHeader w rest hl
  · exact h.runCommand hu
  · exact h.runCommand hu

theorem State.WF.hostAct {s u : State} {a : HostAction} (h : s.WF) (hu : hostAct a s = .next u) : u.WF := by
  obtain ⟨w, -, rfl⟩ | ⟨bs, -, -, rfl⟩ | ⟨-, rfl⟩ | ⟨-, rfl⟩ | ⟨w, ws, -, -, rfl⟩ | ⟨k, -, -, rfl⟩ | ⟨-, -, rfl⟩ |
    ⟨-, rfl⟩ := hostAct_cases hu
  · exact h.of_same rfl rfl rfl rfl rfl rfl rfl rfl
  · exact h.of_same rfl rfl rfl rfl rfl rfl rfl rfl
  · exact h.of_same rfl rfl rfl rfl rfl rfl rfl rfl
  · exact h.of_same rfl rfl rfl rfl rfl rfl rfl rfl
  · exact h.tailRsp.of_same rfl rfl rfl rfl rfl rfl rfl rfl
  · exact h.of_same rfl rfl rfl rfl rfl rfl rfl rfl
  · exact h.of_same rfl rfl rfl rfl rfl rfl rfl rfl
  · exact h.resetCic

theorem State.WF.step {s u : State} (h : s.WF) (hu : step s = .next u) : u.WF := by
  rcases step_cases s with ⟨-, hs⟩ | ⟨as, -, hs⟩ | ⟨a, as, -, hs⟩ <;> rw [hs] at hu
  · exact h.cicStep hu
  · exact (h.withAgenda as).cicStep hu
  · exact (h.withAgenda as).hostAct hu

/-- Settles O47: the invariant is kept by the CIC's turn (each verdict carries a well-formed state) and by each action of the
host. -/
theorem stepKeepsTheStateWellFormed : Obligations.StepKeepsTheStateWellFormed :=
  fun _ _ h hu => h.step hu

end Sys2Proof.Machine

/-! SUPPORT. STATUS (10_state.md R24-R27): the state after reset, the fields of the STATUS word, IDLE, the writers of ERR over
every step, and the writers of LSEL and LLEN over every command. -/

namespace Sys2Proof

/-- Tables without a valid entry are legal, whatever their number (R23). -/
theorem tablesLegal_replicate_invalid (n : Nat) : tablesLegal (List.replicate n ⟨none, none, none, none⟩) := by
  intro T hT sel d hd
  rw [List.eq_of_mem_replicate hT] at hd
  rcases sel_cases sel with rfl | rfl | rfl | rfl <;> cases hd

theorem Params.reference_wf : Params.reference.WF where
  tables_pos := by decide
  tables_le := by decide
  depth := by decide
  init_legal := tablesLegal_replicate_invalid 4

/-- The commands whose success writes LSEL and LLEN (R26). -/
def Instr.isCodec : Instr → Bool
  | .dec _ => true
  | .enc _ _ => true
  | .size _ _ => true
  | .nop => false
  | .tblWr _ _ _ _ _ => false
  | .tblRd _ _ => false
  | .clrerr => false

end Sys2Proof

namespace Sys2Proof.Machine

/-! ### The state after reset -/

theorem State.WF.resetWith {p : Params} (h : p.WF) : (State.resetWith p).WF where
  params := h
  tables := rfl
  legal := h.init_legal
  rsp := Nat.zero_le _
  err := Nat.zero_le _
  mark := fun hn => absurd rfl hn
  pend := fun _ hw => nomatch hw
  llen := .inl ⟨rfl, rfl⟩

/-- Settles O48: the tables after reset are TABLE_INIT, which legal parameters make legal; everything else is 0 or empty. -/
theorem resetStateIsWellFormed : Obligations.ResetStateIsWellFormed :=
  ⟨.resetWith Params.reference_wf, fun _ hp => .resetWith hp⟩

/-! ### The STATUS word -/

/-- The bits of STATUS by position (R24). -/
theorem State.statusWord_getLsbD (s : State) (i : Nat) :
    s.statusWord.getLsbD i =
      if i < 4 then s.err.getLsbD i else if i < 6 then s.lsel.getLsbD (i - 4)
      else if i < 8 then false else if i < 14 then s.llen.getLsbD (i - 8)
      else if i < 31 then false else (BitVec.ofBool s.idle).getLsbD (i - 31) := by
  change (BitVec.ofBool s.idle ++ 0#17 ++ s.llen ++ 0#2 ++ s.lsel ++ s.err : BitVec (1 + 17 + 6 + 2 + 2 + 4)).getLsbD i = _
  simp only [BitVec.getLsbD_append, BitVec.getLsbD_zero]
  rcases Nat.lt_or_ge i 4 with h | h
  · simp [h]
  · simp only [show ¬ i < 4 by omega, if_false, Nat.sub_sub, Nat.reduceAdd,
      show (i - 4 < 2) ↔ i < 6 by omega, show (i - 6 < 2) ↔ i < 8 by omega,
      show (i - 8 < 6) ↔ i < 14 by omega, show (i - 14 < 17) ↔ i < 31 by omega]

/-- Cutting a field out of STATUS: its bit i is STATUS's bit start + i. -/
theorem State.statusWord_field (s : State) {start len : Nat} {x : BitVec len}
    (h : ∀ i < len, s.statusWord.getLsbD (start + i) = x.getLsbD i) : s.statusWord.extractLsb' start len = x := by
  apply BitVec.eq_of_getLsbD_eq
  intro i hi
  rw [BitVec.getLsbD_extractLsb', h i hi]
  simp [hi]

theorem State.statusWord_err (s : State) : s.statusWord.extractLsb' 0 4 = s.err := by
  refine s.statusWord_field fun i hi => ?_
  simp (disch := omega) only [statusWord_getLsbD, if_pos, Nat.zero_add]

theorem State.statusWord_lsel (s : State) : s.statusWord.extractLsb' 4 2 = s.lsel := by
  refine s.statusWord_field fun i hi => ?_
  simp (disch := omega) only [statusWord_getLsbD, if_pos, if_neg, Nat.add_sub_cancel_left]

theorem State.statusWord_reserved_low (s : State) : s.statusWord.extractLsb' 6 2 = 0#2 := by
  refine s.statusWord_field fun i hi => ?_
  simp (disch := omega) only [statusWord_getLsbD, if_pos, if_neg, BitVec.getLsbD_zero]

theorem State.statusWord_llen (s : State) : s.statusWord.extractLsb' 8 6 = s.llen := by
  refine s.statusWord_field fun i hi => ?_
  simp (disch := omega) only [statusWord_getLsbD, if_pos, if_neg, Nat.add_sub_cancel_left]

theorem State.statusWord_reserved_high (s : State) : s.statusWord.extractLsb' 14 17 = 0#17 := by
  refine s.statusWord_field fun i hi => ?_
  simp (disch := omega) only [statusWord_getLsbD, if_pos, if_neg, BitVec.getLsbD_zero]

theorem State.statusWord_idle (s : State) : s.statusWord.extractLsb' 31 1 = BitVec.ofBool s.idle := by
  refine s.statusWord_field fun i hi => ?_
  simp (disch := omega) only [statusWord_getLsbD, if_neg, Nat.add_sub_cancel_left]

@[simp] theorem State.idle_iff (s : State) : s.idle = true ↔ s.cmdq = [] ∧ s.pend = none := by
  simp [State.idle]

@[simp] theorem State.errO_iff (s : State) : s.errO = true ↔ s.err ≠ 0#4 := by
  simp [State.errO]

/-- Settles O13: the word's fields, each cut out of its bits by position. -/
theorem statusWordLayout : Obligations.StatusWordLayout := by
  intro s
  refine ⟨s.statusWord_err, s.statusWord_lsel, s.statusWord_reserved_low, s.statusWord_llen, s.statusWord_reserved_high,
    ?_, s.errO_iff⟩
  rw [s.statusWord_idle, ← s.idle_iff]
  cases s.idle <;> decide

/-! ### IDLE -/

/-- A held command stands in CMDQ (R54). -/
theorem State.cmdq_ne_nil_of_held {s : State} (h : s.held = true) : s.cmdq ≠ [] := by
  intro hq
  simp [State.held, hq] at h

/-- Settles O19: a held command stands in CMDQ, so an empty CMDQ holds none. -/
theorem idleMeansNothingQueuedOrHeld : Obligations.IdleMeansNothingQueuedOrHeld := by
  intro s
  have idle_false : ¬ (s.cmdq = [] ∧ s.pend = none) → s.idle = false := fun h =>
    Bool.eq_false_iff.mpr fun hi => h (s.idle_iff.mp hi)
  refine ⟨⟨fun h => ?_, fun ⟨hq, hp, _⟩ => s.idle_iff.mpr ⟨hq, hp⟩⟩,
    fun hh => idle_false fun h => State.cmdq_ne_nil_of_held hh h.1, fun hp => idle_false fun h => hp h.2⟩
  obtain ⟨hq, hp⟩ := s.idle_iff.mp h
  exact ⟨hq, hp, Bool.eq_false_iff.mpr fun hh => State.cmdq_ne_nil_of_held hh hq⟩

/-! ### What a verdict does to STATUS -/

/-- LSEL and LLEN of `u` are those of `s` (R26). -/
def State.SameResult (s u : State) : Prop := u.lsel = s.lsel ∧ u.llen = s.llen

theorem State.SameResult.refl (s : State) : s.SameResult s := ⟨rfl, rfl⟩

/-- What the verdict of the command `i` in `s` keeps of STATUS: ERR where the command completes (an error is written after the
verdict, by `commit`), and LSEL and LLEN except where a codec command completes. -/
def Verdict.KeepsStatus (i : Instr) (s : State) : Verdict → Prop
  | .done t => t.err = s.err ∧ (i.isCodec = false → s.SameResult t)
  | .raise _ t => s.SameResult t
  | .hold => True

theorem verdictOf_keepsStatus (i : Instr) (s : State) : (verdictOf s i).KeepsStatus i s := by
  rcases verdictOf_cases i s with hv | ⟨e, hv, -⟩ | ⟨t, -, -, hv⟩ | ⟨-, hv⟩ | ⟨t, D, rfl, -, -, -, hv⟩ |
    ⟨t, v, D, sel, rfl, -, -, hv⟩ | ⟨t, v, D, sel, rfl, -, -, -, hv⟩ | ⟨t, sel, k, n, p, T, d, -, -, -, hv⟩ |
    ⟨t, sel, T, -, -, -, hv⟩ <;> rw [hv]
  · trivial
  · exact .refl s
  · exact .refl s
  · exact ⟨rfl, fun _ => .refl s⟩
  · exact ⟨rfl, nofun⟩
  · exact ⟨rfl, nofun⟩
  · exact ⟨rfl, nofun⟩
  · exact ⟨rfl, fun _ => ⟨rfl, rfl⟩⟩
  · exact ⟨rfl, fun _ => ⟨rfl, rfl⟩⟩

/-! ### The writers of ERR (R25) -/

/-- What passed the gate changes ERR only by raising, which sets the fault mark (R129, R133). -/
theorem settle_err {f : Format} {s : State} {v : Verdict} (h : ∀ t, v = .done t → t.err = s.err) :
    (settle f s v).err = s.err ∨ (settle f s v).faultMark = true := by
  cases v with
  | done t => exact .inl (h t rfl)
  | raise e t => exact .inr rfl
  | hold => exact .inl rfl

theorem err_of_wordVerdict_done {w p : Word} {s t : State} (h : wordVerdict w p s = .done t) : t.err = s.err := by
  unfold wordVerdict at h
  cases hd : decode w p with
  | error _ =>
    rw [hd] at h
    cases h
  | ok i =>
    rw [hd] at h
    have hk := verdictOf_keepsStatus i s
    rw [show verdictOf s i = .done t from h] at hk
    exact hk.1

/-- Running a word changes ERR by raising an error from ERR = 0, or as CLRERR. -/
theorem runCommand_err_writers {w p : Word} {s u : State} (h : runCommand w p s = .next u) (hne : u.err ≠ s.err) :
    (s.err = 0#4 ∧ u.faultMark = true) ∨ (u.err = 0#4 ∧ w = 0xF0000000#32) := by
  obtain ⟨-, ⟨hw, rfl⟩ | ⟨-, -, rfl⟩ | ⟨-, he, rfl⟩⟩ := runCommand_cases h
  · exact .inr ⟨rfl, hw⟩
  · exact absurd rfl hne
  · exact .inl ⟨he, (settle_err fun _ ht => err_of_wordVerdict_done ht).resolve_left hne⟩

/-- The CIC's step changes ERR by raising an error from ERR = 0, or by CLRERR: at the head of CMDQ, or in PEND, where only a
state that is not well formed has it (log 11). -/
theorem cicStep_err_writers {s u : State} (h : cicStep s = .next u) (hne : u.err ≠ s.err) :
    (s.err = 0#4 ∧ u.faultMark = true) ∨
    (u.err = 0#4 ∧ ((s.pend = none ∧ s.cmdq.head? = some 0xF0000000#32) ∨ s.pend = some 0xF0000000#32)) := by
  rcases cicStep_cases s with ⟨-, hs⟩ | ⟨w, rest, -, -, -, hs⟩ | ⟨w, rest, hp, hq, -, hs⟩ | ⟨w, p, rest, hp, -, hs⟩ <;>
    rw [hs] at h
  · cases h
    exact absurd rfl hne
  · cases h
    exact absurd rfl hne
  · refine (runCommand_err_writers h hne).imp_right ?_
    rintro ⟨hu, rfl⟩
    exact ⟨hu, .inl ⟨hp, by rw [hq]; rfl⟩⟩
  · refine (runCommand_err_writers h hne).imp_right ?_
    rintro ⟨hu, rfl⟩
    exact ⟨hu, .inr hp⟩

/-- Of the host's actions only Reset changes ERR (R55). -/
theorem hostAct_err_writers {a : HostAction} {s u : State} (h : hostAct a s = .next u) (hne : u.err ≠ s.err) :
    a = .reset ∧ u.err = 0#4 := by
  rcases hostAct_cases h with ⟨w, -, rfl⟩ | ⟨bs, -, -, rfl⟩ | ⟨-, rfl⟩ | ⟨-, rfl⟩ | ⟨w, ws, -, -, rfl⟩ | ⟨k, -, -, rfl⟩ |
    ⟨-, -, rfl⟩ | ⟨ha, rfl⟩
  · exact absurd rfl hne
  · exact absurd rfl hne
  · exact absurd rfl hne
  · exact absurd rfl hne
  · exact absurd rfl hne
  · exact absurd rfl hne
  · exact absurd rfl hne
  · exact ⟨ha, rfl⟩

/-- Settles O41: by whose turn it is. -/
theorem errHasOnlyThreeWriters : Obligations.ErrHasOnlyThreeWriters := by
  intro s u h hne
  rcases step_cases s with ⟨ha, hs⟩ | ⟨as, ha, hs⟩ | ⟨a, as, ha, hs⟩ <;> rw [hs] at h
  · rcases cicStep_err_writers h hne with ⟨he, hm⟩ | ⟨hu, hc⟩
    · exact .inl ⟨he, hm, .inl ha⟩
    · exact .inr (.inl ⟨hu, .inl ha, hc⟩)
  · rcases cicStep_err_writers h hne with ⟨he, hm⟩ | ⟨hu, hc⟩
    · exact .inl ⟨he, hm, .inr ⟨as, ha⟩⟩
    · exact .inr (.inl ⟨hu, .inr ⟨as, ha⟩, hc⟩)
  · obtain ⟨rfl, hu⟩ := hostAct_err_writers h hne
    exact .inr (.inr ⟨hu, as, ha⟩)

/-! ### The writers of LSEL and LLEN (R26) -/

/-- Everything a command can do when it answers a next state: it is CLRERR, it is discarded, or it runs. -/
theorem exec_cases {i : Instr} {s u : State} (h : exec i s = .next u) :
    (i = .clrerr ∧ u = s.clearError.consume .h) ∨
    (i ≠ .clrerr ∧ s.err ≠ 0#4 ∧ u = s.consume i.format) ∨
    (i ≠ .clrerr ∧ s.err = 0#4 ∧ u = settle i.format s (verdictOf s i)) := by
  by_cases hi : i = .clrerr
  · subst hi
    rcases Nat.lt_or_ge 6 s.err.toNat with hr | hr
    · rw [exec_reserved .clrerr s hr] at h
      cases h
    · rw [exec_clrerr s hr] at h
      cases h
      exact .inl ⟨rfl, rfl⟩
  · rw [exec_eq_gated i s hi] at h
    exact .inr ((gated_cases h).2.imp (And.intro hi) (And.intro hi))

/-- A command that is discarded, ends with an error or is no codec command leaves LSEL and LLEN. -/
theorem exec_sameResult {i : Instr} {s u : State} (h : exec i s = .next u)
    (hc : s.err ≠ 0#4 ∨ u.err ≠ 0#4 ∨ i.isCodec = false) : s.SameResult u := by
  rcases exec_cases h with ⟨-, rfl⟩ | ⟨-, -, rfl⟩ | ⟨-, he, rfl⟩
  · exact ⟨rfl, rfl⟩
  · exact ⟨rfl, rfl⟩
  · have hk := verdictOf_keepsStatus i s
    cases hv : verdictOf s i with
    | done t =>
      rw [hv] at hk hc
      obtain ⟨hte, htr⟩ := hk
      exact htr ((hc.resolve_left fun hn => hn he).resolve_left fun hn => hn (hte.trans he))
    | raise e t =>
      rw [hv] at hk
      exact hk
    | hold => exact .refl s

/-- A command other than CLRERR that ends without an error ran, and raised none. -/
theorem exec_completes {i : Instr} {s u : State} (hi : i ≠ .clrerr) (h : exec i s = .next u) (hs : s.err = 0#4)
    (hu : u.err = 0#4) : u = settle i.format s (verdictOf s i) ∧ ∀ e t, verdictOf s i ≠ .raise e t := by
  obtain ⟨hc, -⟩ | ⟨-, hne, -⟩ | ⟨-, -, rfl⟩ := exec_cases h
  · exact absurd hc hi
  · exact absurd hs hne
  · refine ⟨rfl, fun e t hv => ?_⟩
    rw [hv] at hu
    exact e.code_ne_zero hu

/-- `u` holds the result of the alternative `sel` of `D` (R26). -/
def State.HasResult (u : State) (D : Quad Desc) (sel : BitVec 2) : Prop :=
  u.lsel = sel ∧ u.llen = BitVec.ofNat 6 (2 + (D.get sel).width)

theorem State.HasResult.llen_eq {u : State} {D : Quad Desc} {sel : BitVec 2} (h : u.HasResult D sel) :
    u.llen = BitVec.ofNat 6 (2 + (D.get u.lsel).width) := by
  rw [h.1, h.2]

/-- DEC that neither waits nor raises sets the selector it read (R87). -/
theorem dec_hasResult {s : State} {t : BitVec 8} {D : Quad Desc} (hr : s.readyAt t D) (hw : ¬ s.waits (.dec t))
    (hn : ∀ e t', decVerdict t s ≠ .raise e t') :
    (settle .h s (decVerdict t s)).HasResult D (BitVec.ofNat 2 (peekBits 2 s.inBits)) := by
  by_cases hs : s.inputShort D
  · cases he : s.eos with
    | true => exact absurd (decVerdict_exhausted s t D hr hs he) (hn _ _)
    | false => exact absurd ⟨D, hr, .inl ⟨hs, he⟩⟩ hw
  · rcases Nat.lt_or_ge s.rsp.length s.params.rspDepth with hf | hf
    · rw [decVerdict_done s t D hr hs hf]
      exact ⟨rfl, rfl⟩
    · exact absurd ⟨D, hr, .inr ⟨hs, hf⟩⟩ hw

/-- ENC that does not raise sets the selector it chose (R88). -/
theorem enc_hasResult {s : State} {t : BitVec 8} {v : Word} {D : Quad Desc} (hr : s.readyAt t D)
    (hn : ∀ e t', encVerdict t v s ≠ .raise e t') :
    ∃ sel, choose D v = some sel ∧ (settle .hp s (encVerdict t v s)).HasResult D sel := by
  cases hc : choose D v with
  | none => exact absurd (encVerdict_noAlt s t v D hr hc) (hn _ _)
  | some sel =>
    rw [encVerdict_some s t v D sel hr hc]
    exact ⟨sel, rfl, rfl, rfl⟩

/-- SIZE that neither waits nor raises sets the selector it chose (R89). -/
theorem size_hasResult {s : State} {t : BitVec 8} {v : Word} {D : Quad Desc} (hr : s.readyAt t D)
    (hw : ¬ s.waits (.size t v)) (hn : ∀ e t', sizeVerdict t v s ≠ .raise e t') :
    ∃ sel, choose D v = some sel ∧ (settle .hp s (sizeVerdict t v s)).HasResult D sel := by
  cases hc : choose D v with
  | none => exact absurd (sizeVerdict_noAlt s t v D hr hc) (hn _ _)
  | some sel =>
    rcases Nat.lt_or_ge s.rsp.length s.params.rspDepth with hf | hf
    · rw [sizeVerdict_done s t v D sel hr hc hf]
      exact ⟨sel, rfl, rfl, rfl⟩
    · exact absurd ⟨D, sel, hr, inRange_of_choose D v sel hc, hf⟩ hw

/-- A DEC, ENC or SIZE that does not wait and ends without an error holds the result of the alternative it used. -/
theorem exec_codec_hasResult {i : Instr} {s u : State} {t : BitVec 8} {D : Quad Desc} (v : Word)
    (h : exec i s = .next u) (hs : s.err = 0#4) (hu : u.err = 0#4) (hw : ¬ s.waits i) (hr : s.readyAt t D) :
    (i = .dec t → u.HasResult D (BitVec.ofNat 2 (peekBits 2 s.inBits))) ∧
    (i = .enc t v ∨ i = .size t v → ∃ sel, choose D v = some sel ∧ u.HasResult D sel) := by
  constructor
  · rintro rfl
    obtain ⟨rfl, hn⟩ := exec_completes (by simp) h hs hu
    exact dec_hasResult hr hw hn
  · rintro (rfl | rfl)
    · obtain ⟨rfl, hn⟩ := exec_completes (by simp) h hs hu
      exact enc_hasResult hr hn
    · obtain ⟨rfl, hn⟩ := exec_completes (by simp) h hs hu
      exact size_hasResult hr hw hn

/-- Settles O42: what every verdict leaves, and what a codec command that completes sets. -/
theorem onlyASuccessfulCodecCommandSetsLselAndLlen : Obligations.OnlyASuccessfulCodecCommandSetsLselAndLlen := by
  intro i s u h
  refine ⟨fun hc => exec_sameResult h ?_, fun t v D hs hu hw hr => ?_⟩
  · refine hc.imp_right fun hc => hc.imp_right fun hi => ?_
    obtain rfl | rfl | ⟨t, sel, k, n, p, rfl⟩ | ⟨t, sel, rfl⟩ := hi <;> rfl
  · obtain ⟨hdec, hsel⟩ := exec_codec_hasResult v h hs hu hw hr
    refine ⟨fun hi => (hdec hi).1, fun hi => ?_, fun hi => ?_⟩
    · obtain ⟨sel, hc, hres⟩ := hsel hi
      rw [hres.1]
      exact hc
    · rcases hi with hi | hi
      · exact (hdec hi).llen_eq
      · obtain ⟨sel, -, hres⟩ := hsel hi
        exact hres.llen_eq

end Sys2Proof.Machine

/-! SUPPORT. Bits and numbers (20_memory.md R42-R44): PeekBits as a sum, written bits by position, and the byte view. -/

namespace Sys2Proof

/-! ### Peeked bits are numbers (R42) -/

/-- The bit at position i of a string weighs 2^i, and bits past its end weigh nothing (R42). -/
theorem peekBits_eq_sum (n : Nat) (bs : BitString) :
    peekBits n bs = ∑ i ∈ Finset.range n, (bs.getD i false).toNat * 2 ^ i := by
  induction n generalizing bs with
  | zero => rfl
  | succ n ih =>
    cases bs with
    | nil => simp [peekBits]
    | cons b bs =>
      have hpeek : peekBits (n + 1) (b :: bs) = b.toNat + 2 * peekBits n bs := rfl
      rw [hpeek, ih, Finset.sum_range_succ', Finset.mul_sum, Nat.add_comm]
      congr 1
      · exact Finset.sum_congr rfl fun i _ => by rw [List.getD_cons_succ]; ring
      · simp

/-- The number of a bit string has the string's bits, and 0 bits after them (R42). -/
theorem testBit_bitsToNat (bs : BitString) (i : Nat) : (bitsToNat bs).testBit i = bs.getD i false := by
  induction bs generalizing i with
  | nil => simp
  | cons b bs ih =>
    cases i with
    | zero => cases b <;> simp [Nat.testBit_zero]
    | succ i =>
      have hb : b.toNat ≤ 1 := b.toNat_le
      have hhalf : bitsToNat (b :: bs) / 2 = bitsToNat bs := by
        rw [bitsToNat_cons]
        omega
      rw [Nat.testBit_succ, hhalf, ih, List.getD_cons_succ]

/-! ### Written bits (R43) -/

theorem getElem?_bitsOfNat {n i : Nat} (v : Nat) (h : i < n) : (bitsOfNat n v)[i]? = some (v.testBit i) := by
  simp [bitsOfNat, h]

/-- A value that fits n bits is read back from the n bits written for it, whatever follows (R43). -/
theorem peekBits_bitsOfNat_append {n v : Nat} (rest : BitString) (h : v < 2 ^ n) :
    peekBits n (bitsOfNat n v ++ rest) = v := by
  have hp := peekBits_append (bitsOfNat n v) rest
  rwa [length_bitsOfNat, bitsToNat_bitsOfNat, Nat.mod_eq_of_lt h] at hp

/-! ### The byte view (R44) -/

@[simp] theorem length_byteView (bs : BitString) : (byteView bs).length = (bs.length + 7) / 8 := by
  simp [byteView]

/-- Bit j of byte m of the byte view is stream bit 8 * m + j, or 0 past the end (R44). -/
theorem getLsbD_streamByte (bs : BitString) (m : Nat) {j : Nat} (h : j < 8) :
    (streamByte bs m).getLsbD j = bs.getD (8 * m + j) false := by
  rw [streamByte, peekBits, BitVec.getLsbD_ofNat, testBit_bitsToNat]
  simp [h, List.getD_eq_getElem?_getD]

end Sys2Proof

namespace Sys2Proof.Machine

/-- Settles O6: by `peekBits_eq_sum`, and the split of IN into the bits taken and the bits left. -/
theorem peekedBitsAreTheirSum : Obligations.PeekedBitsAreTheirSum := by
  intro n s hn
  refine ⟨peekBits_eq_sum n s.inBits, ⟨s.inBits.take n, List.length_take_of_le hn, ?_, rfl⟩, ?_⟩
  · rw [State.dropIn_inBits, List.take_append_drop]
  · rintro rfl
    exact ⟨rfl, rfl⟩

/-- Settles O7: what is written is its bits by position, and reading is the inverse on values that fit. -/
theorem writtenBitsReadBack : Obligations.WrittenBitsReadBack := by
  intro n v s rest hv
  refine ⟨rfl, length_bitsOfNat n v, fun i hi => getElem?_bitsOfNat v hi, peekBits_bitsOfNat_append rest hv, ?_⟩
  exact List.drop_left' (length_bitsOfNat n v)

/-- Settles O8: byte k / 8 is there, and its bit k mod 8 is stream bit 8 * (k / 8) + k mod 8. -/
theorem byteViewPlacesEveryBit : Obligations.ByteViewPlacesEveryBit := by
  intro bs
  refine ⟨length_byteView bs, fun k hk => ?_⟩
  have hbyte : k / 8 < (bs.length + 7) / 8 := by omega
  have hpos : 8 * (k / 8) + k % 8 = k := Nat.div_add_mod k 8
  have hget : (byteView bs)[k / 8]? = some (streamByte bs (k / 8)) := by simp [byteView, hbyte]
  rw [hget, Option.map_some, getLsbD_streamByte bs _ (Nat.mod_lt k (by decide)), hpos, List.getD_eq_getElem _ _ hk,
    List.getElem?_eq_getElem hk]

end Sys2Proof.Machine

/-! SUPPORT. The turns (20_memory.md R54, R55): the command that the queued words decode to, the host's actions one by one, and
a table write followed by a read (R52). -/

namespace Sys2Proof

/-! ### Headers and their payload words -/

/-- A 2-word header is one with OP 2, 3 or 4 (R73). -/
theorem wordLen_eq_two_iff (w : Word) : wordLen w = 2 ↔ opOf w ∈ [2#4, 3#4, 4#4] := by
  have hmem : opOf w ∈ [2#4, 3#4, 4#4] ↔ opOf w = 2#4 ∨ opOf w = 3#4 ∨ opOf w = 4#4 := by simp
  rw [hmem, wordLen]
  split <;> simp_all

theorem formatOf_eq_h_iff (w : Word) : formatOf w = .h ↔ wordLen w = 1 := by
  rcases wordLen_cases w with h | h <;> simp [formatOf, h]

/-- A 1-word header is decoded without its payload argument (R76). -/
theorem decode_of_wordLen_one {w : Word} (h : wordLen w = 1) (p q : Word) : decode w p = decode w q := by
  have hop : ¬ (opOf w = 2#4 ∨ opOf w = 3#4 ∨ opOf w = 4#4) := fun ho => by simp [wordLen, ho] at h
  push Not at hop
  obtain ⟨h2, h3, h4⟩ := hop
  simp only [decode_fields, if_neg h2, if_neg h3, if_neg h4]

theorem decode_of_decodeTableWord {nbits w : Nat} {i : Instr} (h : decodeTableWord nbits w = some i) :
    decode (tableHeader nbits w) (tablePayload nbits w) = .ok i := by
  unfold decodeTableWord at h
  cases hd : decode (tableHeader nbits w) (tablePayload nbits w) with
  | ok j =>
    rw [hd] at h
    cases h
    rfl
  | error e =>
    rw [hd] at h
    cases h

theorem decode_header_tblWr (t : BitVec 8) (s k : BitVec 2) (n : BitVec 6) (p q : Word) :
    decode (header (.tblWr t s k n q)) p = .ok (.tblWr t s k n p) := by
  simp [decode_fields, header]

theorem decode_header_tblRd (t : BitVec 8) (s : BitVec 2) (p : Word) :
    decode (header (.tblRd t s)) p = .ok (.tblRd t s) := by
  simp [decode_fields, header]

/-- The info word as a number: its fields stand at bits 31, 16 and 10 and do not overlap (R102). -/
theorem Desc.info_eq_ofNat (d : Desc) :
    d.info = BitVec.ofNat 32 (2 ^ 31 + d.kind.code.toNat * 2 ^ 16 + d.n.toNat * 2 ^ 10) := by
  have hn : d.n.toNat < 2 ^ 6 := d.n.isLt
  have hk : d.kind.code.toNat < 2 ^ 2 := d.kind.code.isLt
  have hlow : d.kind.code.toNat * 2 ^ 16 + d.n.toNat * 2 ^ 10 = d.kind.code.toNat <<< 16 ||| d.n.toNat <<< 10 := by
    rw [← Nat.shiftLeft_add_eq_or_of_lt (by rw [Nat.shiftLeft_eq]; omega), Nat.shiftLeft_eq, Nat.shiftLeft_eq]
  have hall : 2 ^ 31 + d.kind.code.toNat * 2 ^ 16 + d.n.toNat * 2 ^ 10 =
      1 <<< 31 ||| (d.kind.code.toNat <<< 16 ||| d.n.toNat <<< 10) := by
    rw [Nat.add_assoc, ← hlow, ← Nat.shiftLeft_add_eq_or_of_lt (by omega)]
    rfl
  apply BitVec.eq_of_toNat_eq
  rw [hall]
  simp (disch := omega) [Desc.info, Nat.or_assoc, Nat.mod_eq_of_lt]

end Sys2Proof

namespace Sys2Proof.Machine

theorem runCommand_of_decode {w p : Word} {i : Instr} (h : decode w p = .ok i) (s : State) :
    runCommand w p s = exec i s := by
  simp [runCommand, h]

/-! ### The step (R54) -/

/-- The CIC's turn by its words (R54): a framing step, the decoded command's meaning, or no step. -/
theorem cicStep_words (s : State) :
    (∀ w rest i, s.pend = none → s.cmdq = w :: rest → w.extractLsb' 28 4 ∉ [2#4, 3#4, 4#4] →
      decode w 0#32 = .ok i → cicStep s = exec i s) ∧
    (∀ w rest, s.pend = none → s.cmdq = w :: rest → w.extractLsb' 28 4 ∈ [2#4, 3#4, 4#4] →
      cicStep s = .next { s with pend := some w, cmdq := rest }) ∧
    (∀ w p rest i, s.pend = some w → s.cmdq = p :: rest → decode w p = .ok i → cicStep s = exec i s) ∧
    (s.cmdq = [] → cicStep s = .next s) := by
  refine ⟨fun w rest i hp hq hop hd => ?_, fun w rest hp hq hop => ?_, fun w p rest i hp hq hd => ?_, cicStep_empty s⟩
  · have hl : wordLen w = 1 := (wordLen_cases w).resolve_right fun h2 => hop ((wordLen_eq_two_iff w).mp h2)
    rw [cicStep_one s w rest hp hq hl, runCommand_of_decode hd]
  · exact cicStep_frame s w rest hp hq ((wordLen_eq_two_iff w).mpr hop)
  · rw [cicStep_two s w p rest hp hq, runCommand_of_decode hd]

/-- Settles O14: the turn the agenda names, and `cicStep_words` for the CIC's. -/
theorem stepRunsTheDecodedCommand : Obligations.StepRunsTheDecodedCommand := by
  refine ⟨?_, fun s a as ha => by rw [step, ha]; rfl⟩
  rintro s s0 (⟨ha, rfl⟩ | ⟨as, ha, rfl⟩)
  · have hs : step s0 = cicStep s0 := by rw [step, ha]
    rw [hs]
    exact cicStep_words s0
  · have hs : step s = cicStep { s with agenda := as } := by rw [step, ha]; rfl
    rw [hs]
    exact cicStep_words { s with agenda := as }

/-- Settles O21: the placed words are those the CIC's turn decodes; a 1-word command does not look at its payload. -/
theorem placedCommandRunsOnTheNextStep : Obligations.PlacedCommandRunsOnTheNextStep := by
  intro s nbits w i hd
  have hdec := decode_of_decodeTableWord hd
  refine ⟨fun hf => ?_, fun hf => ?_⟩
  · have hl := (formatOf_eq_h_iff _).mp hf
    rw [State.withFetchWord, State.placeCommand, hf]
    change cicStep { s with pend := none, cmdq := tableHeader nbits w :: s.cmdq } = _
    rw [cicStep_one _ _ _ rfl rfl hl, runCommand_of_decode (by rw [decode_of_wordLen_one hl, hdec])]
  · rw [State.withFetchWord, State.placeCommand, hf]
    change cicStep { s with pend := some (tableHeader nbits w), cmdq := tablePayload nbits w :: s.cmdq } = _
    rw [cicStep_two _ _ _ _ rfl rfl, runCommand_of_decode hdec]

/-! ### The host's actions (R55) -/

theorem hostPushBits_open {s : State} (h : s.eos = false) (bs : BitString) :
    hostAct (.pushBits bs) s = .next (s.pushBits bs) := by
  simp [hostAct, hostPushBits, h]

theorem hostPopRsp_cons {s : State} {w : Word} {ws : List Word} (h : s.rsp = w :: ws) :
    hostAct .popRsp s = .next (s.tailRsp.saw (.popped w)) := by
  simp [hostAct, hostPopRsp, h]

theorem hostTakeOut_le {s : State} {k : Nat} (h : k ≤ s.outBits.length) :
    hostAct (.takeOut k) s = .next ((s.dropOut k).saw (.took (s.outBits.take k))) := by
  simp [hostAct, hostTakeOut, Nat.not_lt.mpr h]

/-- Settles O44: action by action. -/
theorem hostActionsHaveTheirEffects : Obligations.HostActionsHaveTheirEffects := by
  intro s
  refine ⟨fun _ => rfl, fun bs he => hostPushBits_open he bs, fun bs he => ?_, rfl, rfl, fun w ws hr => ?_, fun hr => ?_,
    fun a b ho => ?_, fun k hk => ?_, fun he => ?_⟩
  · simp [hostAct, hostPushBits, he]
  · rw [hostPopRsp_cons hr, State.tailRsp, hr]
    rfl
  · simp [hostAct, hostPopRsp, hr]
  · rw [hostTakeOut_le (by simp [ho]), State.dropOut, ho, List.drop_left, List.take_left]
    rfl
  · simp [hostAct, hostTakeOut, hk]
  · rw [hostAct, hostReadStatus, s.reservedErr_of_le he]
    rfl

/-! ### A table write and the read after it (R52) -/

/-- The CIC's turn with a legal TBL.WR and its payload (R100). -/
theorem cicStep_tblWr_legal {s : State} {t : BitVec 8} {sel k : BitVec 2} {n : BitVec 6} {p : Word} {rest : List Word}
    {T : Table} {d : Desc} (he : s.err = 0#4) (hpend : s.pend = some (header (.tblWr t sel k n p)))
    (hq : s.cmdq = p :: rest) (hT : s.table? t = some T) (hd : Desc.ofFields k n p = some d) :
    cicStep s = .next ((s.setTable t (T.set sel (some d))).consume .hp) := by
  rw [cicStep_two s _ p rest hpend hq, runCommand_of_decode (decode_header_tblWr t sel k n p p), exec, execTblWr,
    gated_run _ _ _ he, tblWrVerdict_legal s t sel k n p T d hT hd, commit]

/-- The CIC's turn with a TBL.RD of a table that is there and two free slots (R101). -/
theorem cicStep_tblRd_done {s : State} {t : BitVec 8} {sel : BitVec 2} {rest : List Word} {T : Table}
    (he : s.err = 0#4) (hpend : s.pend = none) (hq : s.cmdq = header (.tblRd t sel) :: rest) (hT : s.table? t = some T)
    (hroom : s.rsp.length + 2 ≤ s.params.rspDepth) :
    cicStep s = .next ((s.push (entryWords (T.get sel))).consume .h) := by
  have hlen : wordLen (header (.tblRd t sel)) = 1 := by simp [header, wordLen_packWord]
  rw [cicStep_one s _ rest hpend hq hlen, runCommand_of_decode (decode_header_tblRd t sel 0#32), exec, execTblRd,
    gated_run _ _ _ he, tblRdVerdict_done s t sel T hT hroom, commit]

/-- The table read after it is written (R41). -/
theorem State.table?_setTable {s : State} {t : BitVec 8} (T : Table) (h : t.toNat < s.numTables) :
    (s.setTable t T).table? t = some T := by
  rw [State.table?, State.setTable_tbl]
  exact List.getElem?_set_self h

/-- Settles O38: the write leaves the descriptor of its fields in the table, and the read pushes that entry's two words. -/
theorem tableWriteIsVisibleToTheNextRead : Obligations.TableWriteIsVisibleToTheNextRead := by
  intro s t sel k n p rest he ht hleg hroom hpend hq
  obtain ⟨T, hT⟩ := s.table?_eq_some t ht
  obtain ⟨d, hd, hk, hn, hp, -⟩ := Desc.ofFields_of_legal k n p hleg
  have hrest : ((s.setTable t (T.set sel (some d))).consume .hp).cmdq = header (.tblRd t sel) :: rest := by simp [hq]
  refine ⟨_, _, cicStep_tblWr_legal he hpend hq hT hd,
    cicStep_tblRd_done he rfl hrest (State.table?_setTable _ ht) hroom, congrArg List.tail hrest, rfl, ?_⟩
  simp [Quad.get_set, entryWords, Desc.info_eq_ofNat, hk, hn, hp]

end Sys2Proof.Machine

/-! SUPPORT. What a command leaves unchanged, and when it holds (20_memory.md R47, R54, R58): stated of a verdict and the state
it carries, and taken from there through the gate to the command. -/

namespace Sys2Proof

/-! ### Choose -/

theorem betterAlt_eq_none (D : Quad Desc) (v : Word) (best : Option (BitVec 2)) (sel : BitVec 2) :
    betterAlt D v best sel = none ↔ best = none ∧ (D.get sel).inRange v = false := by
  unfold betterAlt
  cases (D.get sel).inRange v with
  | false => simp
  | true => cases best <;> simp [apply_ite (· = none)]

/-- Choose finds an alternative for a value that some range holds (R85). -/
theorem exists_choose_of_inRange {D : Quad Desc} {v : Word} {sel : BitVec 2} (h : (D.get sel).inRange v = true) :
    ∃ sel', choose D v = some sel' := by
  refine Option.ne_none_iff_exists'.mp fun hn => ?_
  simp only [choose, List.foldl_cons, List.foldl_nil, betterAlt_eq_none] at hn
  obtain ⟨⟨⟨⟨-, h0⟩, h1⟩, h2⟩, h3⟩ := hn
  rcases sel_cases sel with rfl | rfl | rfl | rfl <;> simp_all

theorem length_wireBits (D : Quad Desc) (sel : BitVec 2) (raw : Nat) :
    (wireBits D sel raw).length = 2 + (D.get sel).width := by
  simp [wireBits]

end Sys2Proof

namespace Sys2Proof.Machine

/-- The state a verdict carries has the property `P`; a hold carries none. -/
def Verdict.Carries (P : State → Prop) : Verdict → Prop
  | .done t => P t
  | .raise _ t => P t
  | .hold => True

theorem wordVerdict_carries {P : State → Prop} {s : State} (h : ∀ i, (verdictOf s i).Carries P) (hs : P s) (w p : Word) :
    (wordVerdict w p s).Carries P := by
  unfold wordVerdict
  cases decode w p with
  | ok i => exact h i
  | error _ => exact hs

theorem Verdict.Carries.imp {P Q : State → Prop} {v : Verdict} (h : v.Carries P) (hpq : ∀ t, P t → Q t) :
    v.Carries Q := by
  cases v with
  | done t => exact hpq t h
  | raise e t => exact hpq t h
  | hold => trivial

/-- What holds of the state a verdict carries, and is kept by consuming words and raising an error, holds of the state the
command ends in. -/
theorem settle_of_carries {P : State → Prop} {s : State} {v : Verdict} {f : Format} (h : v.Carries P) (hs : P s)
    (hc : ∀ t, P t → P (t.consume f)) (hr : ∀ e t, P t → P (t.raiseError e)) :
    P (settle f s v) := by
  cases v with
  | done t => exact hc t h
  | raise e t => exact hc _ (hr e t h)
  | hold => exact hs

/-! ### What no command touches -/

/-- `u` has the queued words of `s` (R30). -/
def State.SameWords (s u : State) : Prop := u.cmdq = s.cmdq ∧ u.pend = s.pend

/-- `u` agrees with `s` on the parameters, EOS, the agenda and the host's record, which no command writes (R38, R58). -/
def State.SameRest (s u : State) : Prop :=
  u.params = s.params ∧ u.eos = s.eos ∧ u.agenda = s.agenda ∧ u.seen = s.seen

theorem State.SameWords.refl (s : State) : s.SameWords s := ⟨rfl, rfl⟩

theorem State.SameRest.refl (s : State) : s.SameRest s := ⟨rfl, rfl, rfl, rfl⟩

theorem verdictOf_same (i : Instr) (s : State) : (verdictOf s i).Carries fun t => s.SameWords t ∧ s.SameRest t := by
  rcases verdictOf_cases i s with hv | ⟨e, hv, -⟩ | ⟨t, -, -, hv⟩ | ⟨-, hv⟩ | ⟨t, D, -, -, -, -, hv⟩ |
    ⟨t, v, D, sel, -, -, -, hv⟩ | ⟨t, v, D, sel, -, -, -, -, hv⟩ | ⟨t, sel, k, n, p, T, d, -, -, -, hv⟩ |
    ⟨t, sel, T, -, -, -, hv⟩ <;> rw [hv]
  · trivial
  all_goals exact ⟨.refl s, .refl s⟩

/-- A verdict leaves the words, which are consumed at the end of the command (R54). -/
theorem verdictOf_sameWords (i : Instr) (s : State) : (verdictOf s i).Carries s.SameWords :=
  (verdictOf_same i s).imp fun _ h => h.1

theorem verdictOf_sameRest (i : Instr) (s : State) : (verdictOf s i).Carries s.SameRest :=
  (verdictOf_same i s).imp fun _ h => h.2

theorem settle_sameRest {s : State} {v : Verdict} (f : Format) (h : v.Carries s.SameRest) : s.SameRest (settle f s v) :=
  settle_of_carries h (.refl s) (fun _ ht => ht) (fun _ _ ht => ht)

theorem exec_sameRest {i : Instr} {s u : State} (h : exec i s = .next u) : s.SameRest u := by
  obtain ⟨-, rfl⟩ | ⟨-, -, rfl⟩ | ⟨-, -, rfl⟩ := exec_cases h
  · exact .refl s
  · exact .refl s
  · exact settle_sameRest _ (verdictOf_sameRest i s)

theorem runCommand_sameRest {w p : Word} {s u : State} (h : runCommand w p s = .next u) : s.SameRest u := by
  obtain ⟨-, ⟨-, rfl⟩ | ⟨-, -, rfl⟩ | ⟨-, -, rfl⟩⟩ := runCommand_cases h
  · exact .refl s
  · exact .refl s
  · exact settle_sameRest _ (wordVerdict_carries (verdictOf_sameRest · s) (.refl s) w p)

/-! ### Holding (R54) -/

/-- Consuming a word changes the state: CMDQ loses its head. -/
theorem State.consume_ne_self {s t : State} (f : Format) (ht : t.cmdq = s.cmdq) (hq : s.cmdq ≠ []) : t.consume f ≠ s := by
  intro h
  have htail : s.cmdq.tail = s.cmdq := by
    rw [← ht, ← State.consume_cmdq t f, h, ht]
  have hlen := congrArg List.length htail
  have hpos := List.length_pos_iff.mpr hq
  rw [List.length_tail] at hlen
  omega

/-- A command that passed the gate with a word to consume leaves the state only by holding. -/
theorem settle_eq_self_iff {s : State} {v : Verdict} (f : Format) (hv : v.Carries s.SameWords) (hq : s.cmdq ≠ []) :
    settle f s v = s ↔ v = .hold := by
  cases v with
  | done t => exact ⟨fun h => absurd h (State.consume_ne_self f hv.1 hq), nofun⟩
  | raise e t => exact ⟨fun h => absurd h (State.consume_ne_self (t := t.raiseError e) f hv.1 hq), nofun⟩
  | hold => exact ⟨fun _ => rfl, fun _ => rfl⟩

/-- With ERR = 0 and a word to consume, a command but CLRERR leaves the state exactly when its verdict is to hold (log 4). -/
theorem exec_eq_self_iff {i : Instr} {s : State} (hi : i ≠ .clrerr) (he : s.err = 0#4) (hq : s.cmdq ≠ []) :
    exec i s = .next s ↔ verdictOf s i = .hold := by
  rw [exec_eq_gated i s hi, gated_run _ _ _ he, commit_eq, Host.Outcome.next.injEq]
  exact settle_eq_self_iff _ (verdictOf_sameWords i s) hq

theorem decVerdict_hold_iff (s : State) (t : BitVec 8) : decVerdict t s = .hold ↔ s.waits (.dec t) := by
  constructor
  · intro h
    cases hc : s.checkTable t with
    | error e => cases (decVerdict_error s t e hc).symm.trans h
    | ok D =>
      have hr := (s.checkTable_eq_ok t D).mp hc
      refine ⟨D, hr, ?_⟩
      by_cases hs : s.inputShort D
      · refine .inl ⟨hs, Bool.eq_false_iff.mpr fun he => ?_⟩
        cases (decVerdict_exhausted s t D hr hs he).symm.trans h
      · refine .inr ⟨hs, Nat.not_lt.mp fun hf => ?_⟩
        cases (decVerdict_done s t D hr hs hf).symm.trans h
  · rintro ⟨D, hr, ⟨hs, he⟩ | ⟨hs, hf⟩⟩
    · exact decVerdict_starved s t D hr hs he
    · exact decVerdict_full s t D hr hs hf

theorem encVerdict_ne_hold (s : State) (t : BitVec 8) (v : Word) : encVerdict t v s ≠ .hold := by
  intro h
  cases hc : s.checkTable t with
  | error e => cases (encVerdict_error s t v e hc).symm.trans h
  | ok D =>
    have hr := (s.checkTable_eq_ok t D).mp hc
    cases hch : choose D v with
    | none => cases (encVerdict_noAlt s t v D hr hch).symm.trans h
    | some sel => cases (encVerdict_some s t v D sel hr hch).symm.trans h

theorem sizeVerdict_hold_iff (s : State) (t : BitVec 8) (v : Word) : sizeVerdict t v s = .hold ↔ s.waits (.size t v) := by
  constructor
  · intro h
    cases hc : s.checkTable t with
    | error e => cases (sizeVerdict_error s t v e hc).symm.trans h
    | ok D =>
      have hr := (s.checkTable_eq_ok t D).mp hc
      cases hch : choose D v with
      | none => cases (sizeVerdict_noAlt s t v D hr hch).symm.trans h
      | some sel =>
        refine ⟨D, sel, hr, inRange_of_choose D v sel hch, Nat.not_lt.mp fun hf => ?_⟩
        cases (sizeVerdict_done s t v D sel hr hch hf).symm.trans h
  · rintro ⟨D, sel, hr, hin, hf⟩
    obtain ⟨sel', hch⟩ := exists_choose_of_inRange hin
    exact sizeVerdict_full s t v D sel' hr hch hf

theorem tblWrVerdict_ne_hold (s : State) (t : BitVec 8) (sel k : BitVec 2) (n : BitVec 6) (p : Word) :
    tblWrVerdict t sel k n p s ≠ .hold := by
  intro h
  cases hT : s.table? t with
  | none => cases (tblWrVerdict_tindex s t sel k n p hT).symm.trans h
  | some T =>
    cases hd : Desc.ofFields k n p with
    | none => cases (tblWrVerdict_desc s t sel k n p T hT hd).symm.trans h
    | some d => cases (tblWrVerdict_legal s t sel k n p T d hT hd).symm.trans h

theorem tblRdVerdict_hold_iff (s : State) (t : BitVec 8) (sel : BitVec 2) :
    tblRdVerdict t sel s = .hold ↔ s.waits (.tblRd t sel) := by
  constructor
  · intro h
    cases hT : s.table? t with
    | none => cases (tblRdVerdict_tindex s t sel hT).symm.trans h
    | some T =>
      refine ⟨Nat.not_le.mp fun hn => ?_, Nat.not_le.mp fun hf => ?_⟩
      · cases ((s.table?_eq_none t).mpr hn).symm.trans hT
      · cases (tblRdVerdict_done s t sel T hT hf).symm.trans h
  · rintro ⟨ht, hf⟩
    obtain ⟨T, hT⟩ := s.table?_eq_some t ht
    exact tblRdVerdict_full s t sel T hT hf

/-- A verdict is to hold exactly in the cases of R54's list. -/
theorem verdictOf_hold_iff (i : Instr) (s : State) : verdictOf s i = .hold ↔ s.waits i := by
  cases i with
  | nop => exact ⟨nofun, nofun⟩
  | dec t => exact decVerdict_hold_iff s t
  | enc t v => exact ⟨fun h => absurd h (encVerdict_ne_hold s t v), nofun⟩
  | size t v => exact sizeVerdict_hold_iff s t v
  | tblWr t sel k n p => exact ⟨fun h => absurd h (tblWrVerdict_ne_hold s t sel k n p), nofun⟩
  | tblRd t sel => exact tblRdVerdict_hold_iff s t sel
  | clrerr => exact ⟨nofun, nofun⟩

/-- Settles O18: a command leaves the state exactly when its verdict is to hold; CLRERR always consumes its word. -/
theorem commandHoldsExactlyWhenItWaits : Obligations.CommandHoldsExactlyWhenItWaits := by
  intro i s he hq
  by_cases hi : i = .clrerr
  · subst hi
    rw [exec_clrerr s (by simp [he]), Host.Outcome.next.injEq]
    exact ⟨fun h => absurd h (State.consume_ne_self .h rfl hq), nofun⟩
  · exact (exec_eq_self_iff hi he hq).trans (verdictOf_hold_iff i s)

/-! ### DEC, ENC and SIZE (R26, R47, R129) -/

/-- What the codec command `i` leaves of TBL, the streams, RSP and the draws. -/
def State.SameCodec (i : Instr) (s u : State) : Prop :=
  u.tbl = s.tbl ∧
  (∀ t, i = .dec t → u.outBits = s.outBits) ∧
  (∀ t v, i = .enc t v → u.inBits = s.inBits ∧ u.rsp = s.rsp ∧ u.draws = s.draws) ∧
  (∀ t v, i = .size t v → u.inBits = s.inBits ∧ u.outBits = s.outBits ∧ u.draws = s.draws)

theorem State.SameCodec.refl (i : Instr) (s : State) : s.SameCodec i s :=
  ⟨rfl, fun _ _ => rfl, fun _ _ _ => ⟨rfl, rfl, rfl⟩, fun _ _ _ => ⟨rfl, rfl, rfl⟩⟩

theorem verdictOf_sameCodec {i : Instr} (hi : i.isCodec = true) (s : State) :
    (verdictOf s i).Carries (s.SameCodec i) := by
  rcases verdictOf_cases i s with hv | ⟨e, hv, -⟩ | ⟨t, rfl, -, hv⟩ | ⟨-, hv⟩ | ⟨t, D, rfl, -, -, -, hv⟩ |
    ⟨t, v, D, sel, rfl, -, -, hv⟩ | ⟨t, v, D, sel, rfl, -, -, -, hv⟩ | ⟨t, sel, k, n, p, T, d, rfl, -, -, hv⟩ |
    ⟨t, sel, T, rfl, -, -, hv⟩ <;> rw [hv]
  · trivial
  · exact .refl i s
  · exact ⟨rfl, fun _ _ => rfl, nofun, nofun⟩
  · exact .refl i s
  · exact ⟨rfl, fun _ _ => rfl, nofun, nofun⟩
  · exact ⟨rfl, nofun, fun _ _ _ => ⟨rfl, rfl, rfl⟩, nofun⟩
  · exact ⟨rfl, nofun, nofun, fun _ _ _ => ⟨rfl, rfl, rfl⟩⟩
  · cases hi
  · cases hi

theorem exec_sameCodec {i : Instr} {s u : State} (hi : i.isCodec = true) (h : exec i s = .next u) : s.SameCodec i u := by
  obtain ⟨rfl, -⟩ | ⟨-, -, rfl⟩ | ⟨-, -, rfl⟩ := exec_cases h
  · cases hi
  · exact .refl i s
  · exact settle_of_carries (verdictOf_sameCodec hi s) (.refl i s) (fun _ ht => ht) (fun _ _ ht => ht)

/-- A verdict that raises leaves RSP and OUT (R129). -/
theorem same_rsp_out_of_raise {i : Instr} {s t : State} {e : ErrCode} (h : verdictOf s i = .raise e t) :
    t.rsp = s.rsp ∧ t.outBits = s.outBits := by
  rcases verdictOf_cases i s with hv | ⟨e', hv, -⟩ | ⟨t', -, -, hv⟩ | ⟨-, hv⟩ | ⟨t', D, -, -, -, -, hv⟩ |
    ⟨t', v, D, sel, -, -, -, hv⟩ | ⟨t', v, D, sel, -, -, -, -, hv⟩ | ⟨t', sel, k, n, p, T, d, -, -, -, hv⟩ |
    ⟨t', sel, T, -, -, -, hv⟩ <;> cases hv.symm.trans h
  · exact ⟨rfl, rfl⟩
  · exact ⟨rfl, rfl⟩

/-- Where ERR ends non-zero, the command was discarded or raised, and RSP and OUT are unchanged (R129, R130). -/
theorem exec_failed_same_rsp_out {i : Instr} {s u : State} (h : exec i s = .next u) (hu : u.err ≠ 0#4) :
    u.rsp = s.rsp ∧ u.outBits = s.outBits := by
  obtain ⟨-, rfl⟩ | ⟨-, -, rfl⟩ | ⟨-, he, rfl⟩ := exec_cases h
  · exact ⟨rfl, rfl⟩
  · exact ⟨rfl, rfl⟩
  · cases hv : verdictOf s i with
    | done t =>
      have hk := verdictOf_keepsStatus i s
      rw [hv] at hk hu
      exact absurd (hk.1.trans he) hu
    | raise e t =>
      obtain ⟨hrsp, hout⟩ := same_rsp_out_of_raise hv
      exact ⟨hrsp, hout⟩
    | hold => exact ⟨rfl, rfl⟩

/-- A 1-word command leaves PEND (R54). -/
theorem exec_same_pend {i : Instr} {s u : State} (hf : i.format = .h) (h : exec i s = .next u) : u.pend = s.pend := by
  obtain ⟨-, rfl⟩ | ⟨-, -, rfl⟩ | ⟨-, -, rfl⟩ := exec_cases h
  · rfl
  · rw [hf, State.consume_h_pend]
  · rw [hf]
    exact settle_of_carries (P := fun t => t.pend = s.pend) ((verdictOf_sameWords i s).imp fun _ ht => ht.2) rfl
      (fun _ ht => ht) (fun _ _ ht => ht)

/-- Settles O50: what no command writes, what each codec command leaves, and what an error leaves. -/
theorem codecCommandsLeaveTheRestAlone : Obligations.CodecCommandsLeaveTheRestAlone := by
  intro i s u t v hi h
  have hcodec : i.isCodec = true := by rcases hi with rfl | rfl | rfl <;> rfl
  obtain ⟨hparams, heos, hagenda, hseen⟩ := exec_sameRest h
  obtain ⟨htbl, hdec, henc, hsize⟩ := exec_sameCodec hcodec h
  refine ⟨htbl, hparams, heos, hagenda, hseen, fun hu => ?_, fun hd => ⟨hdec t hd, ?_⟩, henc t v, hsize t v⟩
  · obtain ⟨hl, hll⟩ := exec_sameResult h (.inr (.inl hu))
    exact ⟨hl, hll, exec_failed_same_rsp_out h hu⟩
  · subst hd
    exact exec_same_pend rfl h

end Sys2Proof.Machine

/-! SUPPORT. What a turn of the CIC appends to OUT and RSP and consumes from IN and CMDQ (20_memory.md R47-R50). -/

namespace Sys2Proof.Machine

/-! ### OUT and RSP only grow (R49, R50) -/

/-- `u` has OUT and RSP of `s` with bits and words appended: at most two words, and at most 65 bits, or 34 (R6, R69) when `s` is
well formed. -/
def State.Appends (s u : State) : Prop :=
  (∃ b, u.outBits = s.outBits ++ b ∧ b.length ≤ 65 ∧ (s.WF → b.length ≤ 34)) ∧
  (∃ ws, u.rsp = s.rsp ++ ws ∧ ws.length ≤ 2)

theorem State.Appends.of_out {s u : State} (b : BitString) (ho : u.outBits = s.outBits ++ b) (hr : u.rsp = s.rsp)
    (h65 : b.length ≤ 65) (h34 : s.WF → b.length ≤ 34) : s.Appends u :=
  ⟨⟨b, ho, h65, h34⟩, [], by simp [hr], by simp⟩

theorem State.Appends.of_rsp {s u : State} (ws : List Word) (ho : u.outBits = s.outBits) (hr : u.rsp = s.rsp ++ ws)
    (h : ws.length ≤ 2) : s.Appends u :=
  ⟨⟨[], by simp [ho], by simp, by simp⟩, ws, hr, h⟩

theorem State.Appends.of_same {s u : State} (ho : u.outBits = s.outBits) (hr : u.rsp = s.rsp) : s.Appends u :=
  .of_rsp [] ho (by simp [hr]) (by simp)

theorem verdictOf_appends (i : Instr) (s : State) : (verdictOf s i).Carries s.Appends := by
  rcases verdictOf_cases i s with hv | ⟨e, hv, -⟩ | ⟨t, -, -, hv⟩ | ⟨-, hv⟩ | ⟨t, D, -, -, -, -, hv⟩ |
    ⟨t, v, D, sel, -, hr, -, hv⟩ | ⟨t, v, D, sel, -, -, -, -, hv⟩ | ⟨t, sel, k, n, p, T, d, -, -, -, hv⟩ |
    ⟨t, sel, T, -, -, -, hv⟩ <;> rw [hv]
  · trivial
  · exact .of_same rfl rfl
  · exact .of_same rfl rfl
  · exact .of_same rfl rfl
  · exact .of_rsp [_] rfl rfl (by simp)
  · refine .of_out (wireBits D sel ((D.get sel).rawOf v)) rfl rfl ?_ fun hwf => ?_ <;> rw [length_wireBits]
    · have hw := (D.get sel).width_le_63
      omega
    · have hw := hwf.width_le hr sel
      omega
  · exact .of_rsp [_] rfl rfl (by simp)
  · exact .of_same rfl rfl
  · exact .of_rsp _ rfl rfl (by simp)

/-! ### IN only loses bits at its front (R47, R48) -/

/-- The verdict of a command in `s` drops bits at the front of IN: at most 34 (R6, R69) when `s` is well formed and no
IN_EXHAUSTED is raised (R127). -/
def Verdict.DropsInput (s : State) : Verdict → Prop
  | .done t => ∃ k, t.inBits = s.inBits.drop k ∧ (s.WF → k ≤ 34)
  | .raise e t => ∃ k, t.inBits = s.inBits.drop k ∧ (e = .inExhausted ∨ k ≤ 34)
  | .hold => True

theorem verdictOf_dropsInput (i : Instr) (s : State) : (verdictOf s i).DropsInput s := by
  rcases verdictOf_cases i s with hv | ⟨e, hv, -⟩ | ⟨t, -, -, hv⟩ | ⟨-, hv⟩ | ⟨t, D, -, hr, -, -, hv⟩ |
    ⟨t, v, D, sel, -, -, -, hv⟩ | ⟨t, v, D, sel, -, -, -, -, hv⟩ | ⟨t, sel, k, n, p, T, d, -, -, -, hv⟩ |
    ⟨t, sel, T, -, -, -, hv⟩ <;> rw [hv]
  · trivial
  · exact ⟨0, rfl, .inr (Nat.zero_le _)⟩
  · exact ⟨_, rfl, .inl rfl⟩
  · exact ⟨0, rfl, fun _ => Nat.zero_le _⟩
  · refine ⟨_, rfl, fun hwf => ?_⟩
    have hw := hwf.width_le hr (BitVec.ofNat 2 (peekBits 2 s.inBits))
    omega
  · exact ⟨0, rfl, fun _ => Nat.zero_le _⟩
  · exact ⟨0, rfl, fun _ => Nat.zero_le _⟩
  · exact ⟨0, rfl, fun _ => Nat.zero_le _⟩
  · exact ⟨0, rfl, fun _ => Nat.zero_le _⟩

/-! ### The turn -/

/-- `u` has what a turn of the CIC may do to the queues and streams of `s` (R47-R50, R58). -/
def State.Advances (s u : State) : Prop :=
  s.Appends u ∧ (∃ k, u.inBits = s.inBits.drop k ∧ (s.WF → u.err = 6#4 ∨ k ≤ 34)) ∧
  (u.cmdq = s.cmdq ∨ u.cmdq = s.cmdq.tail) ∧ s.SameRest u

/-- A turn that touches no stream. -/
theorem State.Advances.of_same {s u : State} (ho : u.outBits = s.outBits) (hr : u.rsp = s.rsp) (hi : u.inBits = s.inBits)
    (hq : u.cmdq = s.cmdq ∨ u.cmdq = s.cmdq.tail) (h : s.SameRest u) : s.Advances u :=
  ⟨.of_same ho hr, ⟨0, hi, fun _ => .inr (Nat.zero_le _)⟩, hq, h⟩

theorem settle_advances {s : State} {v : Verdict} (f : Format) (ha : v.Carries s.Appends) (hd : v.DropsInput s)
    (hw : v.Carries s.SameWords) (hr : v.Carries s.SameRest) : s.Advances (settle f s v) := by
  cases v with
  | done t =>
    obtain ⟨k, hk, hle⟩ := hd
    exact ⟨ha, ⟨k, hk, fun hwf => .inr (hle hwf)⟩, .inr (congrArg List.tail hw.1), hr⟩
  | raise e t =>
    obtain ⟨k, hk, hle⟩ := hd
    exact ⟨ha, ⟨k, hk, fun _ => hle.imp_left (ErrCode.code_eq_six e).mpr⟩, .inr (congrArg List.tail hw.1), hr⟩
  | hold => exact .of_same rfl rfl rfl (.inl rfl) (.refl s)

theorem wordVerdict_dropsInput (w p : Word) (s : State) : (wordVerdict w p s).DropsInput s := by
  unfold wordVerdict
  cases decode w p with
  | ok i => exact verdictOf_dropsInput i s
  | error _ => exact ⟨0, rfl, .inr (Nat.zero_le _)⟩

theorem runCommand_advances {w p : Word} {s u : State} (h : runCommand w p s = .next u) : s.Advances u := by
  obtain ⟨-, ⟨-, rfl⟩ | ⟨-, -, rfl⟩ | ⟨-, -, rfl⟩⟩ := runCommand_cases h
  · exact .of_same rfl rfl rfl (.inr rfl) (.refl s)
  · exact .of_same rfl rfl rfl (.inr rfl) (.refl s)
  · exact settle_advances _ (wordVerdict_carries (verdictOf_appends · s) (.of_same rfl rfl) w p)
      (wordVerdict_dropsInput w p s) (wordVerdict_carries (verdictOf_sameWords · s) (.refl s) w p)
      (wordVerdict_carries (verdictOf_sameRest · s) (.refl s) w p)

theorem cicStep_advances {s u : State} (h : cicStep s = .next u) : s.Advances u := by
  rcases cicStep_cases s with ⟨-, hs⟩ | ⟨w, rest, -, hq, -, hs⟩ | ⟨w, rest, -, -, -, hs⟩ | ⟨w, p, rest, -, -, hs⟩ <;>
    rw [hs] at h
  · cases h
    exact .of_same rfl rfl rfl (.inl rfl) (.refl s)
  · cases h
    exact .of_same rfl rfl rfl (.inr (by rw [hq]; rfl)) (.refl s)
  · exact runCommand_advances h
  · exact runCommand_advances h

/-- Settles O52: what each verdict appends and drops, through the gate and the framing step. -/
theorem cicOnlyAppendsAndConsumes : Obligations.CicOnlyAppendsAndConsumes := by
  intro s u h
  obtain ⟨⟨hout, hrsp⟩, hin, hq, -, heos, hagenda, hseen⟩ := cicStep_advances h
  exact ⟨hout, hrsp, hin, hq, heos, hseen, hagenda⟩

end Sys2Proof.Machine

/-! SUPPORT. The interleaving of the CIC with the host (20_memory.md R54-R56): PushCmd, PushBits, SetEOS, PopRsp and TakeOut each make
one kind of update, at the ends of the queues and streams that the CIC leaves to the host, and that update commutes with every
turn of the CIC that does not hold. -/

namespace Sys2Proof.Machine

/-! ### The host's update -/

/-- An update by the host: words and bits appended to CMDQ and IN, EOS perhaps set, and counts of words and bits taken from the
front of RSP and OUT, with what the host saw (R55). -/
structure HostUpdate where
  cmds : List Word := []
  bits : BitString := []
  ends : Bool := false
  pops : Nat := 0
  takes : Nat := 0
  returns : List HostReturn := []

/-- The state after the host's update. -/
def State.hostUpdate (d : HostUpdate) (s : State) : State :=
  { s with
    cmdq := s.cmdq ++ d.cmds
    inBits := s.inBits ++ d.bits
    eos := s.eos || d.ends
    rsp := s.rsp.drop d.pops
    outBits := s.outBits.drop d.takes
    seen := s.seen ++ d.returns }

/-- The update has a move in `s`: no bits after EOS, and RSP and OUT hold what it takes (R55). -/
structure HostUpdate.Fits (d : HostUpdate) (s : State) : Prop where
  bits : s.eos = true → d.bits = []
  pops : d.pops ≤ s.rsp.length
  takes : d.takes ≤ s.outBits.length

section
variable {d : HostUpdate} {s : State}

@[simp] theorem State.hostUpdate_eos : (s.hostUpdate d).eos = (s.eos || d.ends) := rfl
@[simp] theorem State.hostUpdate_inBits : (s.hostUpdate d).inBits = s.inBits ++ d.bits := rfl
@[simp] theorem State.hostUpdate_rsp : (s.hostUpdate d).rsp = s.rsp.drop d.pops := rfl

/-- The host only frees slots of RSP (R29). -/
theorem State.length_rsp_hostUpdate_le : (s.hostUpdate d).rsp.length ≤ s.rsp.length := by
  rw [State.hostUpdate_rsp, List.length_drop]
  omega

/-! ### The update commutes with what commands do -/

theorem State.hostUpdate_consume (f : Format) (h : s.cmdq ≠ []) :
    (s.hostUpdate d).consume f = (s.consume f).hostUpdate d := by
  simp [State.hostUpdate, State.consume, List.tail_append_of_ne_nil h]

theorem State.hostUpdate_push (ws : List Word) (h : d.Fits s) : (s.hostUpdate d).push ws = (s.push ws).hostUpdate d := by
  simp [State.hostUpdate, State.push, List.drop_append_of_le_length h.pops]

theorem State.hostUpdate_appendOut (bs : BitString) (h : d.Fits s) :
    (s.hostUpdate d).appendOut bs = (s.appendOut bs).hostUpdate d := by
  simp [State.hostUpdate, State.appendOut, List.drop_append_of_le_length h.takes]

theorem State.hostUpdate_dropIn {n : Nat} (h : n ≤ s.inBits.length) :
    (s.hostUpdate d).dropIn n = (s.dropIn n).hostUpdate d := by
  simp [State.hostUpdate, State.dropIn, List.drop_append_of_le_length h]

theorem State.hostUpdate_failInput (h : d.bits = []) : (s.hostUpdate d).failInput = s.failInput.hostUpdate d := by
  simp [State.hostUpdate, State.failInput, h]

/-! ### The update commutes with verdicts -/

/-- Bits appended to IN make no input short (R127). -/
theorem State.inputShort_of_hostUpdate {D : Quad Desc} (h : (s.hostUpdate d).inputShort D) : s.inputShort D := by
  by_contra hs
  rw [State.inputShort] at h hs
  push Not at hs
  obtain ⟨h2, hw⟩ := hs
  rw [State.hostUpdate_inBits, peekBits_append_left 2 _ _ h2, List.length_append] at h
  omega

/-- A DEC that completes reads the same selector and raw bits, whatever bits follow. -/
theorem State.hostUpdate_decDone {D : Quad Desc} (hs : ¬ s.inputShort D) (h : d.Fits s) :
    decDone D (s.hostUpdate d) = (decDone D s).hostUpdate d := by
  rw [State.inputShort] at hs
  push Not at hs
  obtain ⟨h2, hw⟩ := hs
  have hraw : (D.get (BitVec.ofNat 2 (peekBits 2 s.inBits))).width ≤ (s.inBits.drop 2).length := by
    rw [List.length_drop]
    omega
  rw [decDone, decDone, State.hostUpdate_inBits, peekBits_append_left 2 _ _ h2, List.drop_append_of_le_length h2,
    peekBits_append_left _ _ _ hraw, State.hostUpdate_dropIn hw, State.hostUpdate_push]
  · rfl
  · exact ⟨h.bits, h.pops, h.takes⟩

/-- The verdict with the state it carries updated. -/
def Verdict.map (g : State → State) : Verdict → Verdict
  | .done t => .done (g t)
  | .raise e t => .raise e (g t)
  | .hold => .hold

theorem decVerdict_hostUpdate {t : BitVec 8} (h : d.Fits s) (hv : decVerdict t s ≠ .hold) :
    decVerdict t (s.hostUpdate d) = (decVerdict t s).map (State.hostUpdate d) := by
  cases hc : s.checkTable t with
  | error e => rw [decVerdict_error s t e hc, decVerdict_error (s.hostUpdate d) t e hc]; rfl
  | ok D =>
    have hr := (s.checkTable_eq_ok t D).mp hc
    by_cases hs : s.inputShort D
    · have he : s.eos = true := by
        by_contra he
        exact hv (decVerdict_starved s t D hr hs (Bool.eq_false_iff.mpr he))
      have hbits := h.bits he
      have hs' : (s.hostUpdate d).inputShort D := by
        rw [State.inputShort, State.hostUpdate_inBits, hbits, List.append_nil]
        exact hs
      rw [decVerdict_exhausted s t D hr hs he, decVerdict_exhausted (s.hostUpdate d) t D hr hs' (by simp [he]),
        State.hostUpdate_failInput hbits]
      rfl
    · have hf : s.rsp.length < s.params.rspDepth := by
        by_contra hf
        exact hv (decVerdict_full s t D hr hs (Nat.not_lt.mp hf))
      have hf' : (s.hostUpdate d).rsp.length < s.params.rspDepth := Nat.lt_of_le_of_lt State.length_rsp_hostUpdate_le hf
      rw [decVerdict_done s t D hr hs hf, decVerdict_done (s.hostUpdate d) t D hr (hs ∘ State.inputShort_of_hostUpdate) hf',
        State.hostUpdate_decDone hs h]
      rfl

theorem encVerdict_hostUpdate (t : BitVec 8) (v : Word) (h : d.Fits s) :
    encVerdict t v (s.hostUpdate d) = (encVerdict t v s).map (State.hostUpdate d) := by
  cases hc : s.checkTable t with
  | error e => rw [encVerdict_error s t v e hc, encVerdict_error (s.hostUpdate d) t v e hc]; rfl
  | ok D =>
    have hr := (s.checkTable_eq_ok t D).mp hc
    cases hch : choose D v with
    | none => rw [encVerdict_noAlt s t v D hr hch, encVerdict_noAlt (s.hostUpdate d) t v D hr hch]; rfl
    | some sel =>
      rw [encVerdict_some s t v D sel hr hch, encVerdict_some (s.hostUpdate d) t v D sel hr hch,
        State.hostUpdate_appendOut _ h]
      rfl

theorem sizeVerdict_hostUpdate {t : BitVec 8} {v : Word} (h : d.Fits s) (hv : sizeVerdict t v s ≠ .hold) :
    sizeVerdict t v (s.hostUpdate d) = (sizeVerdict t v s).map (State.hostUpdate d) := by
  cases hc : s.checkTable t with
  | error e => rw [sizeVerdict_error s t v e hc, sizeVerdict_error (s.hostUpdate d) t v e hc]; rfl
  | ok D =>
    have hr := (s.checkTable_eq_ok t D).mp hc
    cases hch : choose D v with
    | none => rw [sizeVerdict_noAlt s t v D hr hch, sizeVerdict_noAlt (s.hostUpdate d) t v D hr hch]; rfl
    | some sel =>
      have hf : s.rsp.length < s.params.rspDepth := by
        by_contra hf
        exact hv (sizeVerdict_full s t v D sel hr hch (Nat.not_lt.mp hf))
      have hf' : (s.hostUpdate d).rsp.length < s.params.rspDepth := Nat.lt_of_le_of_lt State.length_rsp_hostUpdate_le hf
      rw [sizeVerdict_done s t v D sel hr hch hf, sizeVerdict_done (s.hostUpdate d) t v D sel hr hch hf',
        State.hostUpdate_push _ h]
      rfl

theorem tblWrVerdict_hostUpdate (t : BitVec 8) (sel k : BitVec 2) (n : BitVec 6) (p : Word) :
    tblWrVerdict t sel k n p (s.hostUpdate d) = (tblWrVerdict t sel k n p s).map (State.hostUpdate d) := by
  cases hT : s.table? t with
  | none => rw [tblWrVerdict_tindex s t sel k n p hT, tblWrVerdict_tindex (s.hostUpdate d) t sel k n p hT]; rfl
  | some T =>
    cases hd : Desc.ofFields k n p with
    | none => rw [tblWrVerdict_desc s t sel k n p T hT hd, tblWrVerdict_desc (s.hostUpdate d) t sel k n p T hT hd]; rfl
    | some e =>
      rw [tblWrVerdict_legal s t sel k n p T e hT hd, tblWrVerdict_legal (s.hostUpdate d) t sel k n p T e hT hd]
      rfl

theorem tblRdVerdict_hostUpdate {t : BitVec 8} {sel : BitVec 2} (h : d.Fits s) (hv : tblRdVerdict t sel s ≠ .hold) :
    tblRdVerdict t sel (s.hostUpdate d) = (tblRdVerdict t sel s).map (State.hostUpdate d) := by
  cases hT : s.table? t with
  | none => rw [tblRdVerdict_tindex s t sel hT, tblRdVerdict_tindex (s.hostUpdate d) t sel hT]; rfl
  | some T =>
    have hf : s.rsp.length + 2 ≤ s.params.rspDepth := by
      by_contra hf
      exact hv (tblRdVerdict_full s t sel T hT (Nat.not_le.mp hf))
    have hf' : (s.hostUpdate d).rsp.length + 2 ≤ s.params.rspDepth :=
      Nat.le_trans (Nat.add_le_add_right State.length_rsp_hostUpdate_le 2) hf
    rw [tblRdVerdict_done s t sel T hT hf, tblRdVerdict_done (s.hostUpdate d) t sel T hT hf', State.hostUpdate_push _ h]
    rfl

theorem verdictOf_hostUpdate {i : Instr} (h : d.Fits s) (hv : verdictOf s i ≠ .hold) :
    verdictOf (s.hostUpdate d) i = (verdictOf s i).map (State.hostUpdate d) := by
  cases i with
  | nop => rfl
  | dec t => exact decVerdict_hostUpdate h hv
  | enc t v => exact encVerdict_hostUpdate t v h
  | size t v => exact sizeVerdict_hostUpdate h hv
  | tblWr t sel k n p => exact tblWrVerdict_hostUpdate t sel k n p
  | tblRd t sel => exact tblRdVerdict_hostUpdate h hv
  | clrerr => rfl

theorem wordVerdict_hostUpdate {w p : Word} (h : d.Fits s) (hv : wordVerdict w p s ≠ .hold) :
    wordVerdict w p (s.hostUpdate d) = (wordVerdict w p s).map (State.hostUpdate d) := by
  unfold wordVerdict at hv ⊢
  cases hd : decode w p with
  | ok i =>
    rw [hd] at hv
    exact verdictOf_hostUpdate h hv
  | error _ => rfl

/-! ### The update commutes with the CIC's turn -/

theorem settle_hostUpdate {v : Verdict} (f : Format) (hw : v.Carries s.SameWords) (hq : s.cmdq ≠ []) :
    settle f (s.hostUpdate d) (v.map (State.hostUpdate d)) = (settle f s v).hostUpdate d := by
  cases v with
  | done t =>
    have ht : t.cmdq ≠ [] := by rwa [hw.1]
    exact State.hostUpdate_consume f ht
  | raise e t =>
    have ht : (t.raiseError e).cmdq ≠ [] := by rwa [State.raiseError_cmdq, hw.1]
    exact State.hostUpdate_consume f ht
  | hold => rfl

theorem runCommand_hostUpdate {w p : Word} {u : State} (h : d.Fits s) (hq : s.cmdq ≠ [])
    (hu : runCommand w p s = .next u) (hne : u ≠ s) : runCommand w p (s.hostUpdate d) = .next (u.hostUpdate d) := by
  obtain ⟨hr, ⟨rfl, rfl⟩ | ⟨hw, he, rfl⟩ | ⟨hw, he, rfl⟩⟩ := runCommand_cases hu
  · have hc : (s.hostUpdate d).clearError.consume .h = (s.clearError.consume .h).hostUpdate d :=
      State.hostUpdate_consume (s := s.clearError) .h hq
    rw [runCommand_clrerr, ← hc]
    exact exec_clrerr (s.hostUpdate d) hr
  · rw [runCommand_eq_gated w p _ hw, gated_discard _ (s.hostUpdate d) _ he hr, State.hostUpdate_consume _ hq]
  · have hv : wordVerdict w p s ≠ .hold := by
      intro hv
      rw [hv] at hne
      exact hne rfl
    have hwords := wordVerdict_carries (verdictOf_sameWords · s) (.refl s) w p
    rw [runCommand_eq_gated w p _ hw, gated_run _ (s.hostUpdate d) _ he, commit_eq, wordVerdict_hostUpdate h hv,
      settle_hostUpdate _ hwords hq]

/-- A turn of the CIC that changes the state does the same after the host's update (R56). -/
theorem cicStep_hostUpdate {u : State} (h : d.Fits s) (hu : cicStep s = .next u) (hne : u ≠ s) :
    cicStep (s.hostUpdate d) = .next (u.hostUpdate d) := by
  rcases cicStep_cases s with ⟨-, hs⟩ | ⟨w, rest, hp, hq, hl, hs⟩ | ⟨w, rest, hp, hq, hl, hs⟩ | ⟨w, p, rest, hp, hq, hs⟩ <;>
    rw [hs] at hu
  · cases hu
    exact absurd rfl hne
  · cases hu
    have hq' : (s.hostUpdate d).cmdq = w :: (rest ++ d.cmds) := congrArg (· ++ d.cmds) hq
    exact cicStep_frame _ w _ hp hq' hl
  · have hq' : (s.hostUpdate d).cmdq = w :: (rest ++ d.cmds) := congrArg (· ++ d.cmds) hq
    rw [cicStep_one (s.hostUpdate d) w _ hp hq' hl]
    exact runCommand_hostUpdate h (by simp [hq]) hu hne
  · have hq' : (s.hostUpdate d).cmdq = p :: (rest ++ d.cmds) := congrArg (· ++ d.cmds) hq
    rw [cicStep_two (s.hostUpdate d) w p _ hp hq']
    exact runCommand_hostUpdate h (by simp [hq]) hu hne

end

/-! ### The five actions are host updates -/

/-- PushCmd, PushBits, SetEOS, PopRsp and TakeOut are host updates: the one that such an action makes in `s` it makes in every
state with the same EOS whose RSP and OUT begin as those of `s` (R55). -/
theorem hostAct_exists_update {a : HostAction} {s s' : State} (hflush : a ≠ .flushIn) (hreset : a ≠ .reset)
    (hread : a ≠ .readStatus) (h : hostAct a s = .next s') :
    ∃ d : HostUpdate, d.Fits s ∧ ∀ u : State, u.eos = s.eos → s.rsp <+: u.rsp → s.outBits <+: u.outBits →
      hostAct a u = .next (u.hostUpdate d) := by
  obtain ⟨w, rfl, -⟩ | ⟨bs, rfl, he, -⟩ | ⟨rfl, -⟩ | ⟨rfl, -⟩ | ⟨w, ws, rfl, hr, -⟩ | ⟨k, rfl, hk, -⟩ | ⟨rfl, -⟩ |
    ⟨rfl, -⟩ := hostAct_cases h
  · refine ⟨{ cmds := [w] }, ⟨fun _ => rfl, Nat.zero_le _, Nat.zero_le _⟩, fun u _ _ _ => ?_⟩
    simp [hostAct, State.pushCmd, State.hostUpdate]
  · refine ⟨{ bits := bs }, ⟨fun ht => absurd (he.symm.trans ht) nofun, Nat.zero_le _, Nat.zero_le _⟩, fun u hu _ _ => ?_⟩
    rw [hostPushBits_open (hu.trans he)]
    simp [State.pushBits, State.hostUpdate]
  · refine ⟨{ ends := true }, ⟨fun _ => rfl, Nat.zero_le _, Nat.zero_le _⟩, fun u _ _ _ => ?_⟩
    simp [hostAct, State.setEos, State.hostUpdate]
  · exact absurd rfl hflush
  · refine ⟨{ pops := 1, returns := [.popped w] }, ⟨fun _ => rfl, by simp [hr], Nat.zero_le _⟩, fun u _ hu _ => ?_⟩
    obtain ⟨ws', hu⟩ := hu
    rw [hr, List.cons_append] at hu
    rw [hostPopRsp_cons hu.symm]
    simp [State.tailRsp, State.saw, State.hostUpdate]
  · refine ⟨{ takes := k, returns := [.took (s.outBits.take k)] }, ⟨fun _ => rfl, Nat.zero_le _, hk⟩,
      fun u _ _ hu => ?_⟩
    obtain ⟨b, hu⟩ := hu
    have htake : u.outBits.take k = s.outBits.take k := by rw [← hu, List.take_append_of_le_length hk]
    have hlen : k ≤ u.outBits.length := by
      rw [← hu, List.length_append]
      omega
    rw [hostTakeOut_le hlen, htake]
    simp [State.dropOut, State.saw, State.hostUpdate]
  · exact absurd rfl hread
  · exact absurd rfl hreset

/-- Settles O46: the action is a host update, which commutes with the CIC's turn, and the turn leaves EOS and the fronts of RSP
and OUT, so that the action makes the same update after it. -/
theorem cicStepCommutesWithHostActions : Obligations.CicStepCommutesWithHostActions := by
  intro a s s1 s2 hflush hreset hread hcic hne hhost
  obtain ⟨d, hfits, hact⟩ := hostAct_exists_update hflush hreset hread hhost
  have hs2 : s2 = s.hostUpdate d := by
    have hs := hact s rfl ⟨[], List.append_nil _⟩ ⟨[], List.append_nil _⟩
    rw [hhost] at hs
    cases hs
    rfl
  obtain ⟨⟨⟨b, hout, -⟩, ws, hrsp, -⟩, -, -, -, heos, -⟩ := cicStep_advances hcic
  refine ⟨s1.hostUpdate d, ?_, hact s1 heos ⟨ws, hrsp.symm⟩ ⟨b, hout.symm⟩⟩
  rw [hs2]
  exact cicStep_hostUpdate hfits hcic hne

end Sys2Proof.Machine

/-! SUPPORT. Command words as encodings (30_encoding.md R71-R79): the decoder answers exactly the command whose header it
reads, with the payload it is given, and from that its rows one by one, and the round trip on word lists. -/

namespace Sys2Proof

/-! ### The decoder by headers (R75, R79) -/

/-- The command with the payload word `p` in place of its own, where its format has one (R72). -/
def Instr.withPayload (p : Word) : Instr → Instr
  | .nop => .nop
  | .dec t => .dec t
  | .enc t _ => .enc t p
  | .size t _ => .size t p
  | .tblWr t s k n _ => .tblWr t s k n p
  | .tblRd t s => .tblRd t s
  | .clrerr => .clrerr

@[simp] theorem header_withPayload (i : Instr) (p : Word) : header (i.withPayload p) = header i := by
  cases i <;> rfl

/-- A word is packed from exactly its six fields (R71). -/
theorem eq_packWord_iff (w : Word) (op : BitVec 4) (t : BitVec 8) (s k : BitVec 2) (n : BitVec 6) (r : BitVec 10) :
    w = packWord op t s k n r ↔ opOf w = op ∧ tOf w = t ∧ sOf w = s ∧ kOf w = k ∧ nOf w = n ∧ rsvOf w = r := by
  rw [← packWord_inj, packWord_fields]

theorem decode_header (i : Instr) (p : Word) : decode (header i) p = .ok (i.withPayload p) := by
  cases i <;> simp [decode_fields, header, Instr.withPayload]

/-- A word that decodes to a command is that command's header, and the command holds the payload word (R75, R79). -/
theorem header_of_decode {w p : Word} {i : Instr} (h : decode w p = .ok i) : w = header i ∧ i.withPayload p = i := by
  rw [decode_fields] at h
  -- each branch that answers a command has fixed OP and the unused fields, and reads the operands from `w`
  split_ifs at h <;> cases h <;> simp_all [header, Instr.withPayload, eq_packWord_iff]

/-- The decoder's whole answer: a command exactly for its own header, with the payload it is given. -/
theorem decode_eq_ok_iff (w p : Word) (i : Instr) : decode w p = .ok i ↔ w = header i ∧ i.withPayload p = i := by
  constructor
  · exact header_of_decode
  · rintro ⟨rfl, hp⟩
    rw [decode_header, hp]

/-! ### Word lists (R72, R73) -/

/-- The words that the header `w` takes: itself, and the payload `p` where its length is 2 (R73). -/
def commandWords (w p : Word) : List Word :=
  match formatOf w with
  | .h => [w]
  | .hp => [w, p]

/-- An encoding is the header's words, with the command's own payload. -/
theorem encode_eq_commandWords {i : Instr} {p : Word} (h : i.withPayload p = i) : encode i = commandWords (header i) p := by
  rw [commandWords, formatOf_header]
  cases i <;> cases h <;> rfl

theorem exists_payload (i : Instr) : ∃ p, i.withPayload p = i := by
  cases i with
  | enc t v => exact ⟨v, rfl⟩
  | size t v => exact ⟨v, rfl⟩
  | tblWr t s k n p => exact ⟨p, rfl⟩
  | _ => exact ⟨0#32, rfl⟩

theorem decodeWords_cons_h {w : Word} (hf : formatOf w = .h) (rest : List Word) :
    decodeWords (w :: rest) = (decode w 0#32).map (·, rest) := by
  simp [decodeWords, hf]

theorem decodeWords_cons_hp {w : Word} (hf : formatOf w = .hp) (p : Word) (rest : List Word) :
    decodeWords (w :: p :: rest) = (decode w p).map (·, rest) := by
  simp [decodeWords, hf]

theorem decodeWords_no_payload {w : Word} (hf : formatOf w = .hp) : decodeWords [w] = .error .noPayload := by
  simp [decodeWords, hf]

theorem map_rest_eq_ok_iff {x : Except DecodeError Instr} {ws rest : List Word} {i : Instr} :
    x.map (·, ws) = .ok (i, rest) ↔ x = .ok i ∧ ws = rest := by
  cases x <;> simp [Except.map]

/-- The front of a word list decodes to a command exactly when it is a header's words and they decode to it. -/
theorem decodeWords_eq_ok_iff (ws rest : List Word) (i : Instr) :
    decodeWords ws = .ok (i, rest) ↔ ∃ w p, ws = commandWords w p ++ rest ∧ decode w p = .ok i := by
  constructor
  · intro h
    cases ws with
    | nil => cases h
    | cons w ws =>
      cases hf : formatOf w with
      | h =>
        rw [decodeWords_cons_h hf, map_rest_eq_ok_iff] at h
        obtain ⟨hd, rfl⟩ := h
        exact ⟨w, 0#32, by simp [commandWords, hf], hd⟩
      | hp =>
        cases ws with
        | nil => cases (decodeWords_no_payload hf).symm.trans h
        | cons p ws =>
          rw [decodeWords_cons_hp hf, map_rest_eq_ok_iff] at h
          obtain ⟨hd, rfl⟩ := h
          exact ⟨w, p, by simp [commandWords, hf], hd⟩
  · rintro ⟨w, p, rfl, hd⟩
    rw [commandWords]
    cases hf : formatOf w with
    | h =>
      rw [decode_of_wordLen_one ((formatOf_eq_h_iff w).mp hf) p 0#32] at hd
      exact (decodeWords_cons_h hf rest).trans (by rw [hd]; rfl)
    | hp => exact (decodeWords_cons_hp hf p rest).trans (by rw [hd]; rfl)

/-- Settles O1: an encoding is its header's words, and the header decodes to the command. -/
theorem decodingAnEncodedCommandGivesItBack : Obligations.DecodingAnEncodedCommandGivesItBack := by
  intro i rest
  obtain ⟨p, hp⟩ := exists_payload i
  refine (decodeWords_eq_ok_iff _ _ _).mpr ⟨header i, p, ?_, (decode_eq_ok_iff _ _ _).mpr ⟨rfl, hp⟩⟩
  rw [encode_eq_commandWords hp]

/-- Settles O2: the words are those of a header that decodes to the command, which is the command's own. -/
theorem decodedWordsAreTheEncodingOfTheCommand : Obligations.DecodedWordsAreTheEncodingOfTheCommand := by
  intro ws i rest h
  obtain ⟨w, p, rfl, hd⟩ := (decodeWords_eq_ok_iff _ _ _).mp h
  obtain ⟨rfl, hp⟩ := header_of_decode hd
  rw [encode_eq_commandWords hp]

/-! ### The rows of the opcode map (R79) -/

/-- A row's fixed bits as R79 writes them. -/
theorem OpRow.admits_iff_and (r : OpRow) (w : Word) : r.admits w = true ↔ w &&& r.mask = r.pat :=
  beq_iff_eq

theorem decode_eq_nop_iff (w p : Word) : decode w p = .ok .nop ↔ rowNop.admits w = true := by
  simp [decode_eq_ok_iff, header, Instr.withPayload, eq_packWord_iff, rowNop_admits]

theorem decode_eq_dec_iff (w p : Word) (t : BitVec 8) :
    decode w p = .ok (.dec t) ↔ rowDec.admits w = true ∧ t = tOf w := by
  simp only [decode_eq_ok_iff, header, Instr.withPayload, eq_packWord_iff, rowDec_admits]
  tauto

theorem decode_eq_enc_iff (w p : Word) (t : BitVec 8) (v : Word) :
    decode w p = .ok (.enc t v) ↔ rowEnc.admits w = true ∧ t = tOf w ∧ v = p := by
  simp only [decode_eq_ok_iff, header, Instr.withPayload, Instr.enc.injEq, eq_packWord_iff, rowEnc_admits]
  tauto

theorem decode_eq_size_iff (w p : Word) (t : BitVec 8) (v : Word) :
    decode w p = .ok (.size t v) ↔ rowSize.admits w = true ∧ t = tOf w ∧ v = p := by
  simp only [decode_eq_ok_iff, header, Instr.withPayload, Instr.size.injEq, eq_packWord_iff, rowSize_admits]
  tauto

theorem decode_eq_tblWr_iff (w p : Word) (t : BitVec 8) (s k : BitVec 2) (n : BitVec 6) (v : Word) :
    decode w p = .ok (.tblWr t s k n v) ↔
      rowTblWr.admits w = true ∧ t = tOf w ∧ s = sOf w ∧ k = kOf w ∧ n = nOf w ∧ v = p := by
  simp only [decode_eq_ok_iff, header, Instr.withPayload, Instr.tblWr.injEq, eq_packWord_iff, rowTblWr_admits]
  tauto

theorem decode_eq_tblRd_iff (w p : Word) (t : BitVec 8) (s : BitVec 2) :
    decode w p = .ok (.tblRd t s) ↔ rowTblRd.admits w = true ∧ t = tOf w ∧ s = sOf w := by
  simp only [decode_eq_ok_iff, header, Instr.withPayload, eq_packWord_iff, rowTblRd_admits]
  tauto

/-! ### Illegal headers (R122) -/

theorem extractLsb'_eq_zero_iff (w : Word) (start len : Nat) :
    w.extractLsb' start len = 0#len ↔ ∀ i < len, w.getLsbD (start + i) = false := by
  constructor
  · intro h i hi
    simpa [hi] using congrArg (BitVec.getLsbD · i) h
  · intro h
    exact BitVec.eq_of_getLsbD_eq fun i hi => by simp [hi, h i hi]

/-- Adjacent fields are 0 together. -/
theorem extractLsb'_add_eq_zero_iff (w : Word) (start m n : Nat) :
    w.extractLsb' start (m + n) = 0#(m + n) ↔
      w.extractLsb' start m = 0#m ∧ w.extractLsb' (start + m) n = 0#n := by
  simp only [extractLsb'_eq_zero_iff]
  constructor
  · intro h
    exact ⟨fun i hi => h i (by omega), fun i hi => Nat.add_assoc .. ▸ h (m + i) (by omega)⟩
  · rintro ⟨hlow, hhigh⟩ i hi
    rcases Nat.lt_or_ge i m with hm | hm
    · exact hlow i hm
    · have hsplit : start + m + (i - m) = start + i := by omega
      exact hsplit ▸ hhigh (i - m) (by omega)

/-- Bits [17:0] are N, K and RSV (R71). -/
theorem low18_eq_zero_iff (w : Word) :
    w.extractLsb' 0 18 = 0#18 ↔ kOf w = 0#2 ∧ nOf w = 0#6 ∧ rsvOf w = 0#10 := by
  have h : w.extractLsb' 0 18 = 0#18 ↔ (rsvOf w = 0#10 ∧ nOf w = 0#6) ∧ kOf w = 0#2 :=
    (extractLsb'_add_eq_zero_iff w 0 16 2).trans (and_congr_left' (extractLsb'_add_eq_zero_iff w 0 10 6))
  rw [h]
  tauto

/-- Bits [19:0] are S and bits [17:0] (R71). -/
theorem low20_eq_zero_iff (w : Word) :
    w.extractLsb' 0 20 = 0#20 ↔ sOf w = 0#2 ∧ kOf w = 0#2 ∧ nOf w = 0#6 ∧ rsvOf w = 0#10 := by
  rw [← low18_eq_zero_iff, and_comm]
  exact extractLsb'_add_eq_zero_iff w 0 18 2

/-- Bits [27:0] are T and bits [19:0] (R71). -/
theorem low28_eq_zero_iff (w : Word) :
    w.extractLsb' 0 28 = 0#28 ↔ tOf w = 0#8 ∧ sOf w = 0#2 ∧ kOf w = 0#2 ∧ nOf w = 0#6 ∧ rsvOf w = 0#10 := by
  rw [← low20_eq_zero_iff, and_comm]
  exact extractLsb'_add_eq_zero_iff w 0 20 8

theorem opcode_reserved_iff (op : BitVec 4) : (6 ≤ op.toNat ∧ op.toNat ≤ 14) ↔
    op ≠ 0#4 ∧ op ≠ 1#4 ∧ op ≠ 2#4 ∧ op ≠ 3#4 ∧ op ≠ 4#4 ∧ op ≠ 5#4 ∧ op ≠ 15#4 := by
  revert op
  decide

/-- A header is no command when its opcode is none of the seven, or is one with a field it does not use not 0 (R122). -/
theorem illegalHeader_iff (w : Word) : Machine.illegalHeader w ↔
    (6 ≤ (opOf w).toNat ∧ (opOf w).toNat ≤ 14) ∨
    (opOf w = 0#4 ∧ ¬ (tOf w = 0#8 ∧ sOf w = 0#2 ∧ kOf w = 0#2 ∧ nOf w = 0#6 ∧ rsvOf w = 0#10)) ∨
    (opOf w = 1#4 ∧ ¬ (sOf w = 0#2 ∧ kOf w = 0#2 ∧ nOf w = 0#6 ∧ rsvOf w = 0#10)) ∨
    (opOf w = 2#4 ∧ ¬ (sOf w = 0#2 ∧ kOf w = 0#2 ∧ nOf w = 0#6 ∧ rsvOf w = 0#10)) ∨
    (opOf w = 3#4 ∧ ¬ (sOf w = 0#2 ∧ kOf w = 0#2 ∧ nOf w = 0#6 ∧ rsvOf w = 0#10)) ∨
    (opOf w = 4#4 ∧ ¬ rsvOf w = 0#10) ∨
    (opOf w = 5#4 ∧ ¬ (kOf w = 0#2 ∧ nOf w = 0#6 ∧ rsvOf w = 0#10)) ∨
    (opOf w = 15#4 ∧ ¬ (tOf w = 0#8 ∧ sOf w = 0#2 ∧ kOf w = 0#2 ∧ nOf w = 0#6 ∧ rsvOf w = 0#10)) := by
  rw [← low28_eq_zero_iff, ← low20_eq_zero_iff, ← low18_eq_zero_iff]
  rfl

/-- The decoder rejects exactly the illegal headers. -/
theorem decode_eq_error_iff (w p : Word) : (∃ e, decode w p = .error e) ↔ Machine.illegalHeader w := by
  rw [illegalHeader_iff, opcode_reserved_iff, decode_fields]
  split_ifs <;> simp [*]

/-- Settles O3: row by row, and the rejection by opcode. -/
theorem decoderFollowsTheOpcodeMap : Obligations.DecoderFollowsTheOpcodeMap := fun w p =>
  ⟨(decode_eq_nop_iff w p).trans (rowNop.admits_iff_and w),
    fun t => (decode_eq_dec_iff w p t).trans (and_congr_left' (rowDec.admits_iff_and w)),
    fun t v => (decode_eq_enc_iff w p t v).trans (and_congr_left' (rowEnc.admits_iff_and w)),
    fun t v => (decode_eq_size_iff w p t v).trans (and_congr_left' (rowSize.admits_iff_and w)),
    fun t s k n v => (decode_eq_tblWr_iff w p t s k n v).trans (and_congr_left' (rowTblWr.admits_iff_and w)),
    fun t s => (decode_eq_tblRd_iff w p t s).trans (and_congr_left' (rowTblRd.admits_iff_and w)),
    (Machine.decode_eq_clrerr w p).trans (by rw [show w &&& 0xFFFFFFFF#32 = w from BitVec.and_allOnes]),
    decode_eq_error_iff w p⟩

/-- Settles O4: each word runs through the decoder. -/
theorem wordsWrittenFromTheSpecDecode : Obligations.WordsWrittenFromTheSpecDecode :=
  ⟨rfl, rfl, rfl, rfl, rfl, rfl, rfl, rfl, rfl⟩

end Sys2Proof

/-! SUPPORT. The assembler (30_encoding.md R80, R81): a header word as its fields, each shifted to its place, and the
lines that are refused. -/

namespace Sys2Proof

/-! ### Header words as shifted fields (R80) -/

/-- A packed word is its fields, each shifted to its place (R71). -/
theorem packWord_eq_or (op : BitVec 4) (t : BitVec 8) (s k : BitVec 2) (n : BitVec 6) :
    packWord op t s k n 0#10 = op.setWidth 32 <<< 28 ||| t.setWidth 32 <<< 20 ||| s.setWidth 32 <<< 18 |||
      k.setWidth 32 <<< 16 ||| n.setWidth 32 <<< 10 := by
  apply BitVec.eq_of_getLsbD_eq
  intro i hi
  simp only [packWord_getLsbD, BitVec.getLsbD_or, BitVec.getLsbD_shiftLeft, BitVec.getLsbD_setWidth]
  interval_cases i <;> simp

/-- A packed word whose T, S and N are numbers that fit (R80). -/
theorem packWord_ofNat {t s n : Nat} (op : BitVec 4) (k : BitVec 2) (ht : t ≤ 255) (hs : s ≤ 3) (hn : n ≤ 63) :
    packWord op (BitVec.ofNat 8 t) (BitVec.ofNat 2 s) k (BitVec.ofNat 6 n) 0#10 =
      op.setWidth 32 <<< 28 ||| BitVec.ofNat 32 t <<< 20 ||| BitVec.ofNat 32 s <<< 18 ||| k.setWidth 32 <<< 16 |||
        BitVec.ofNat 32 n <<< 10 := by
  rw [packWord_eq_or, BitVec.setWidth_ofNat_of_le_of_lt (by omega) (by omega),
    BitVec.setWidth_ofNat_of_le_of_lt (by omega) (by omega), BitVec.setWidth_ofNat_of_le_of_lt (by omega) (by omega)]

/-- The header with table index `t` alone (R80). -/
theorem packWord_table {t : Nat} (op : BitVec 4) (ht : t ≤ 255) :
    packWord op (BitVec.ofNat 8 t) 0#2 0#2 0#6 0#10 = op.setWidth 32 <<< 28 ||| BitVec.ofNat 32 t <<< 20 := by
  simpa using packWord_ofNat (s := 0) (n := 0) op 0#2 ht (by omega) (by omega)

/-- The header with table index `t` and entry index `s` (R80). -/
theorem packWord_entry {t s : Nat} (op : BitVec 4) (ht : t ≤ 255) (hs : s ≤ 3) :
    packWord op (BitVec.ofNat 8 t) (BitVec.ofNat 2 s) 0#2 0#6 0#10 =
      op.setWidth 32 <<< 28 ||| BitVec.ofNat 32 t <<< 20 ||| BitVec.ofNat 32 s <<< 18 := by
  simpa using packWord_ofNat (n := 0) op 0#2 ht hs (by omega)

/-! ### Lines assembled and refused (R80) -/

theorem AsmLine.assemble_of_wellFormed {l : AsmLine} (h : l.wellFormed = true) : l.assemble = some l.words :=
  if_pos h

theorem AsmLine.assemble_eq_none_iff (l : AsmLine) : l.assemble = none ↔ ¬ l.wellFormed = true := by
  rw [AsmLine.assemble]
  split <;> simp_all

theorem fitsTable_iff (t : Nat) : fitsTable t = true ↔ t ≤ 255 := decide_eq_true_iff
theorem fitsEntry_iff (s : Nat) : fitsEntry s = true ↔ s ≤ 3 := decide_eq_true_iff
theorem fitsWidth_iff (n : Nat) : fitsWidth n = true ↔ n ≤ 63 := decide_eq_true_iff
theorem fitsWord_iff (v : Nat) : fitsWord v = true ↔ v < 2 ^ 32 := decide_eq_true_iff

/-- The operands of a TBL.SET fit exactly when those of its four TBL.WR do (R81). -/
theorem tblSet_wellFormed_iff (t : Nat) (d0 d1 d2 d3 : AsmDesc) : (AsmLine.tblSet t d0 d1 d2 d3).wellFormed = true ↔
    (AsmLine.tblWr t 0 d0).wellFormed = true ∧ (AsmLine.tblWr t 1 d1).wellFormed = true ∧
      (AsmLine.tblWr t 2 d2).wellFormed = true ∧ (AsmLine.tblWr t 3 d3).wellFormed = true := by
  simp only [AsmLine.wellFormed, Bool.and_eq_true, fitsEntry_iff]
  tauto

/-- TBL.SET is its four TBL.WR in selector order, and is refused with any of them (R81). -/
theorem assemble_tblSet (t : Nat) (d0 d1 d2 d3 : AsmDesc) : AsmLine.assemble (.tblSet t d0 d1 d2 d3) =
    (do
      let w0 ← AsmLine.assemble (.tblWr t 0 d0)
      let w1 ← AsmLine.assemble (.tblWr t 1 d1)
      let w2 ← AsmLine.assemble (.tblWr t 2 d2)
      let w3 ← AsmLine.assemble (.tblWr t 3 d3)
      pure (w0 ++ w1 ++ w2 ++ w3)) := by
  have hset := tblSet_wellFormed_iff t d0 d1 d2 d3
  by_cases h0 : (AsmLine.tblWr t 0 d0).wellFormed = true
  · by_cases h1 : (AsmLine.tblWr t 1 d1).wellFormed = true
    · by_cases h2 : (AsmLine.tblWr t 2 d2).wellFormed = true
      · by_cases h3 : (AsmLine.tblWr t 3 d3).wellFormed = true <;>
          simp [AsmLine.assemble, hset, h0, h1, h2, h3, AsmLine.words]
      · simp [AsmLine.assemble, hset, h0, h1, h2]
    · simp [AsmLine.assemble, hset, h0, h1]
  · simp [AsmLine.assemble, hset, h0]

/-- Settles O5: each line whose operands fit by its header's fields, each refusal by the operand that does not fit, and
TBL.SET as its four writes. -/
theorem assemblerEmitsTheSyntaxTable : Obligations.AssemblerEmitsTheSyntaxTable := by
  refine ⟨⟨rfl, rfl⟩, fun t v ht hv => ?_, fun t s n v ht hs hn hv => ?_, fun t v h => ?_, fun t s d h => ?_,
    fun t s n v h => ?_, fun t s n h => ?_, fun t s v h => ?_, fun t h => ?_, assemble_tblSet⟩
  · have ht' := (fitsTable_iff t).mpr ht
    have hv' := (fitsWord_iff v).mpr hv
    simp [AsmLine.assemble, AsmLine.wellFormed, AsmLine.words, encode, header, packWord_table _ ht, ht', hv']
  · have ht' := (fitsTable_iff t).mpr ht
    have hs' := (fitsEntry_iff s).mpr hs
    have hn' := (fitsWidth_iff n).mpr hn
    have hv' := (fitsWord_iff v).mpr hv
    simp [AsmLine.assemble, AsmLine.wellFormed, AsmLine.words, AsmDesc.wellFormed, AsmDesc.tblWr, encode, header,
      packWord_entry _ ht hs, packWord_ofNat _ _ ht hs hn, ht', hs', hn', hv']
  all_goals
    simp only [AsmLine.assemble_eq_none_iff, AsmLine.wellFormed, AsmDesc.wellFormed, Bool.and_eq_true, fitsTable_iff,
      fitsEntry_iff, fitsWidth_iff, fitsWord_iff]
    omega

end Sys2Proof

/-! SUPPORT. Descriptors (30_encoding.md R62, R63, R82): the range of a legal one, and descriptors and tables that no codec
command tells apart. -/

namespace Sys2Proof

/-! ### Width and range (R63) -/

/-- A range has 2^width members (R63). -/
theorem Desc.hi_add_one (d : Desc) : d.hi + 1 = d.lo + 2 ^ d.width := by
  have hpow : 1 ≤ 2 ^ d.n.toNat := Nat.one_le_two_pow
  cases hk : d.kind <;> simp only [Desc.hi, Desc.lo, Desc.width, hk, pow_zero] <;> omega

/-- A legal descriptor's range is inside 32 bits (R62, R63). -/
theorem Desc.hi_le {d : Desc} (h : d.isLegal = true) : d.hi ≤ 2 ^ 32 - 1 := by
  rw [Desc.isLegal_iff] at h
  cases hk : d.kind <;> simp only [hk] at h <;> simp only [Desc.hi, hk]
  case val =>
    have := d.param.isLt
    omega
  case bits => exact Nat.sub_le_sub_right (Nat.pow_le_pow_right (by decide) h.2.1) 1
  case bitsOffset => exact h.2.2

/-- Settles O9: the table by kind, and the size and the upper end of the range. -/
theorem legalDescriptorHasItsWidthAndRange : Obligations.LegalDescriptorHasItsWidthAndRange := by
  intro d h
  refine ⟨fun hk => ?_, fun hk => ?_, fun hk => ?_, d.inRange_iff, d.hi_add_one, d.hi_le h⟩ <;>
    simp [Desc.width, Desc.lo, Desc.hi, hk]

/-! ### Descriptors and tables that act alike (R82) -/

/-- Two descriptors act alike: no width, range, decoded value or raw number tells them apart. -/
structure Desc.Alike (d e : Desc) : Prop where
  width : d.width = e.width
  inRange : ∀ v, d.inRange v = e.inRange v
  value : ∀ raw, d.value raw = e.value raw
  rawOf : ∀ v, d.rawOf v = e.rawOf v

theorem Desc.Alike.refl (d : Desc) : d.Alike d := ⟨rfl, fun _ => rfl, fun _ => rfl, fun _ => rfl⟩

/-- `BITS n` and `BITSOFF n, 0` act alike (R82). -/
theorem Desc.bits_alike_bitsOffset (n : BitVec 6) : (Desc.mk .bits n 0#32).Alike ⟨.bitsOffset, n, 0#32⟩ where
  width := rfl
  inRange v := by
    rw [Bool.eq_iff_iff, Desc.inRange_iff, Desc.inRange_iff]
    simp [Desc.lo, Desc.hi]
  value _ := rfl
  rawOf _ := rfl

/-- Two ready tables act alike, entry by entry. -/
def Quad.Alike (D E : Quad Desc) : Prop := ∀ sel, (D.get sel).Alike (E.get sel)

/-- Choose looks at ranges and widths alone (R85). -/
theorem Quad.Alike.choose_eq {D E : Quad Desc} (h : D.Alike E) (v : Word) : choose D v = choose E v := by
  have hbetter : betterAlt D v = betterAlt E v := by
    funext best sel
    simp only [betterAlt, (h _).inRange, (h _).width]
  rw [choose, choose, hbetter]

theorem Quad.Alike.wireBits_eq {D E : Quad Desc} (h : D.Alike E) (sel : BitVec 2) (raw : Nat) :
    wireBits D sel raw = wireBits E sel raw := by
  rw [wireBits, wireBits, (h sel).width]

/-- A table written with a descriptor is ready as before, with that descriptor in place of any other (R64, R86). -/
theorem Quad.ready?_set (T : Table) (q : BitVec 2) (d e : Desc) :
    (T.set q (some e)).ready? = (T.set q (some d)).ready?.map (fun D => D.set q e) := by
  cases hd : (T.set q (some d)).ready? with
  | none =>
    obtain ⟨sel, hsel⟩ := (Quad.ready?_eq_none _).mp hd
    refine (Quad.ready?_eq_none _).mpr ⟨sel, ?_⟩
    rw [Quad.get_set] at hsel ⊢
    split at hsel <;> simp_all
  | some D =>
    refine (Quad.ready?_eq_some _ _).mpr fun sel => ?_
    have hsel := (Quad.ready?_eq_some _ _).mp hd sel
    rw [Quad.get_set] at hsel
    simp only [Quad.get_set]
    split <;> simp_all

end Sys2Proof

namespace Sys2Proof.Machine

/-! ### Codec commands under tables that act alike (R82) -/

/-- CheckTable(t) answers the same error in `s` and `u`, or ready tables that act alike (R86). -/
inductive State.AlikeAt (t : BitVec 8) (s u : State) : Prop
  | error (e : ErrCode) (hs : s.checkTable t = .error e) (hu : u.checkTable t = .error e)
  | ready (D E : Quad Desc) (hs : s.readyAt t D) (hu : u.readyAt t E) (h : D.Alike E)

section
variable {s : State} {t : BitVec 8} {T : Table}

theorem State.setTable_setTable (t : BitVec 8) (T T' : Table) (s : State) :
    (s.setTable t T).setTable t T' = s.setTable t T' := by
  simp [State.setTable]

theorem State.lt_numTables_of_table? (h : s.table? t = some T) : t.toNat < s.numTables :=
  Nat.not_le.mp fun hn => nomatch ((s.table?_eq_none t).mpr hn).symm.trans h

/-- Entries that act alike, written to the same place, leave tables that act alike, ready or not. -/
theorem State.alikeAt_setEntry {d e : Desc} (h : d.Alike e) (q : BitVec 2) (hT : s.table? t = some T) :
    (s.setTable t (T.set q (some d))).AlikeAt t ((s.setTable t (T.set q (some d))).setTable t (T.set q (some e))) := by
  rw [State.setTable_setTable]
  have hget (T' : Table) : (s.setTable t T').table? t = some T' :=
    State.table?_setTable T' (State.lt_numTables_of_table? hT)
  have hready := Quad.ready?_set T q d e
  cases hd : (T.set q (some d)).ready? with
  | none =>
    rw [hd] at hready
    exact .error .tableInvalid (State.checkTable_invalid _ t _ (hget _) hd) (State.checkTable_invalid _ t _ (hget _) hready)
  | some D =>
    rw [hd] at hready
    have hD := (Quad.ready?_eq_some _ _).mp hd
    refine .ready D (D.set q e) ⟨_, hget _, hD⟩ ⟨_, hget _, (Quad.ready?_eq_some _ _).mp hready⟩ fun sel => ?_
    rw [Quad.get_set]
    split
    next hsel =>
      have hdq : d = D.get sel := by simpa [Quad.get_set, hsel] using hD sel
      exact hdq ▸ h
    next => exact .refl _

/-- An input is short under either of two tables that act alike (R127). -/
theorem State.inputShort_setTable_iff {D E : Quad Desc} (h : D.Alike E) :
    (s.setTable t T).inputShort E ↔ s.inputShort D := by
  rw [State.inputShort, State.inputShort, (h _).width]
  rfl

theorem State.decDone_setTable {D E : Quad Desc} (h : D.Alike E) :
    Machine.decDone E (s.setTable t T) = (Machine.decDone D s).setTable t T := by
  simp only [Machine.decDone, State.setTable_inBits, (h _).width, (h _).value]
  rfl

theorem decVerdict_setTable (h : s.AlikeAt t (s.setTable t T)) :
    decVerdict t (s.setTable t T) = (decVerdict t s).map (State.setTable t T) := by
  cases h with
  | error e hs hu => rw [decVerdict_error _ t e hs, decVerdict_error _ t e hu]; rfl
  | ready D E hs hu h =>
    obtain ⟨hshort, hlong⟩ := decVerdict_ready s t D hs
    obtain ⟨hshort', hlong'⟩ := decVerdict_ready _ t E hu
    by_cases hi : s.inputShort D
    · rw [hshort hi, hshort' ((State.inputShort_setTable_iff h).mpr hi)]
      cases he : s.eos <;> simp only [State.setTable_eos, he] <;> rfl
    · rw [hlong hi, hlong' (hi ∘ (State.inputShort_setTable_iff h).mp), State.decDone_setTable h]
      by_cases hf : s.params.rspDepth ≤ s.rsp.length <;> simp only [State.setTable_params, State.setTable_rsp, hf] <;> rfl

theorem encVerdict_setTable (v : Word) (h : s.AlikeAt t (s.setTable t T)) :
    encVerdict t v (s.setTable t T) = (encVerdict t v s).map (State.setTable t T) := by
  cases h with
  | error e hs hu => rw [encVerdict_error _ t v e hs, encVerdict_error _ t v e hu]; rfl
  | ready D E hs hu h =>
    have hE := h.choose_eq v
    cases hc : choose D v with
    | none => rw [encVerdict_noAlt _ t v D hs hc, encVerdict_noAlt _ t v E hu (hE ▸ hc)]; rfl
    | some sel =>
      rw [encVerdict_some _ t v D sel hs hc, encVerdict_some _ t v E sel hu (hE ▸ hc), ← h.wireBits_eq, ← (h sel).rawOf,
        ← (h sel).width]
      rfl

theorem sizeVerdict_setTable (v : Word) (h : s.AlikeAt t (s.setTable t T)) :
    sizeVerdict t v (s.setTable t T) = (sizeVerdict t v s).map (State.setTable t T) := by
  cases h with
  | error e hs hu => rw [sizeVerdict_error _ t v e hs, sizeVerdict_error _ t v e hu]; rfl
  | ready D E hs hu h =>
    have hE := h.choose_eq v
    cases hc : choose D v with
    | none => rw [sizeVerdict_noAlt _ t v D hs hc, sizeVerdict_noAlt _ t v E hu (hE ▸ hc)]; rfl
    | some sel =>
      rcases Nat.lt_or_ge s.rsp.length s.params.rspDepth with hf | hf
      · rw [sizeVerdict_done _ t v D sel hs hc hf, sizeVerdict_done _ t v E sel hu (hE ▸ hc) hf, ← (h sel).width]
        rfl
      · rw [sizeVerdict_full _ t v D sel hs hc hf, sizeVerdict_full _ t v E sel hu (hE ▸ hc) hf]
        rfl

/-- The three codec commands do the same under tables that act alike. -/
theorem verdictOf_setTable {i : Instr} {v : Word} (hi : i = .dec t ∨ i = .enc t v ∨ i = .size t v)
    (h : s.AlikeAt t (s.setTable t T)) :
    verdictOf (s.setTable t T) i = (verdictOf s i).map (State.setTable t T) := by
  rcases hi with rfl | rfl | rfl
  · exact decVerdict_setTable h
  · exact encVerdict_setTable v h
  · exact sizeVerdict_setTable v h

theorem settle_setTable (f : Format) (v : Verdict) :
    settle f (s.setTable t T) (v.map (State.setTable t T)) = (settle f s v).setTable t T := by
  cases v <;> rfl

/-- A codec command's next state under the one table is that under the other, but for the table. -/
theorem exec_setTable {i : Instr} {v : Word} {u : State} (hi : i = .dec t ∨ i = .enc t v ∨ i = .size t v)
    (h : s.AlikeAt t (s.setTable t T)) (hu : exec i s = .next u) : exec i (s.setTable t T) = .next (u.setTable t T) := by
  have hne : i ≠ .clrerr := by rcases hi with rfl | rfl | rfl <;> nofun
  rw [exec_eq_gated _ _ hne] at hu ⊢
  obtain ⟨hr, ⟨he, rfl⟩ | ⟨he, rfl⟩⟩ := gated_cases hu
  · exact gated_discard _ _ _ he hr
  · rw [gated_run _ (s.setTable t T) _ he, commit_eq, verdictOf_setTable hi h, settle_setTable]

end

/-- Settles O34: the two descriptors act alike, so the tables they are written to do, whatever else those hold. -/
theorem bitsAndBitsOffsetZeroAreAlike : Obligations.BitsAndBitsOffsetZeroAreAlike := by
  refine ⟨fun n => ⟨rfl, (Desc.bits_alike_bitsOffset n).inRange, ?_, ?_⟩, fun s t T q n v i u hi hT hu => ?_⟩
  · simp [entryWords, Desc.info, Kind.code]
  · simp [entryWords, Desc.info, Kind.code]
  rw [← State.setTable_setTable t (T.set q (some ⟨.bits, n, 0#32⟩))]
  exact exec_setTable hi (State.alikeAt_setEntry (Desc.bits_alike_bitsOffset n) q hT) hu

end Sys2Proof.Machine

/-! SUPPORT. The codec's arithmetic and choice (30_encoding.md R65-R68, 40_codec.md R85, R92), and what DEC, ENC and SIZE do
when they complete (R87-R89), from which the round trips follow (R90, R91, R93). -/

namespace Sys2Proof

/-! ### Raw bits and values of a legal descriptor (R68, R92) -/

/-- The value of raw bits, the literal of VAL told apart (R68). -/
theorem Desc.value_eq_ite (d : Desc) (raw : Nat) :
    d.value raw = if d.kind = .val then d.param else BitVec.ofNat 32 (raw + d.param.toNat) := by
  cases hk : d.kind <;> simp [Desc.value, hk]

/-- A range starts at the param, which is 0 for BITS (R62, R63). -/
theorem Desc.lo_eq_param {d : Desc} (h : d.isLegal = true) : d.lo = d.param.toNat := by
  rw [Desc.isLegal_iff] at h
  cases hk : d.kind <;> simp_all [Desc.lo]

/-- On raw bits that fit, a VAL's literal is raw + param too, its only raw number being 0 (R67, R68). -/
theorem Desc.value_eq_ofNat {d : Desc} {raw : Nat} (h : raw < 2 ^ d.width) :
    d.value raw = BitVec.ofNat 32 (raw + d.param.toNat) := by
  rw [Desc.value_eq_ite]
  split
  next hk =>
    have hraw : raw = 0 := by simpa [Desc.width, hk] using h
    simp [hraw]
  next => rfl

/-- raw + param does not wrap (R92). -/
theorem Desc.toNat_value {d : Desc} (hd : d.isLegal = true) {raw : Nat} (h : raw < 2 ^ d.width) :
    (d.value raw).toNat = raw + d.param.toNat := by
  have hlo := d.lo_eq_param hd
  have hsize := d.hi_add_one
  have hhi := d.hi_le hd
  rw [Desc.value_eq_ofNat h, BitVec.toNat_ofNat, Nat.mod_eq_of_lt (by omega)]

/-- What DEC reads under an alternative is in its range (R92). -/
theorem Desc.inRange_value {d : Desc} (hd : d.isLegal = true) {raw : Nat} (h : raw < 2 ^ d.width) :
    d.inRange (d.value raw) = true := by
  have hlo := d.lo_eq_param hd
  have hsize := d.hi_add_one
  rw [Desc.inRange_iff, Desc.toNat_value hd h]
  omega

/-- ENC of what DEC read has the raw number that DEC read (R91). -/
theorem Desc.rawOf_value {d : Desc} (hd : d.isLegal = true) {raw : Nat} (h : raw < 2 ^ d.width) :
    d.rawOf (d.value raw) = raw := by
  rw [Desc.rawOf, Desc.toNat_value hd h, Nat.add_sub_cancel]

/-- v - param does not borrow for a value in range (R92). -/
theorem Desc.param_le {d : Desc} (hd : d.isLegal = true) {v : Word} (h : d.inRange v = true) : d.param.toNat ≤ v.toNat :=
  d.lo_eq_param hd ▸ ((d.inRange_iff v).mp h).1

/-- v - param fits the raw field for a value in range (R92). -/
theorem Desc.rawOf_lt {d : Desc} (hd : d.isLegal = true) {v : Word} (h : d.inRange v = true) :
    d.rawOf v < 2 ^ d.width := by
  have hlo := d.lo_eq_param hd
  have hsize := d.hi_add_one
  rw [Desc.inRange_iff] at h
  rw [Desc.rawOf]
  omega

/-- DEC of what ENC wrote has the value that ENC was given (R90). -/
theorem Desc.value_rawOf {d : Desc} (hd : d.isLegal = true) {v : Word} (h : d.inRange v = true) :
    d.value (d.rawOf v) = v := by
  apply BitVec.eq_of_toNat_eq
  rw [Desc.toNat_value hd (Desc.rawOf_lt hd h), Desc.rawOf, Nat.sub_add_cancel (Desc.param_le hd h)]

/-- Settles O10: sums and differences are exact because a legal range is `2^width` values from param up, inside 32 bits. -/
theorem codecArithmeticIsExact : Obligations.CodecArithmeticIsExact := by
  intro d hd
  refine ⟨fun raw hraw => ?_, fun v hv => ⟨d.param_le hd hv, rfl, d.rawOf_lt hd hv, d.value_rawOf hd hv⟩⟩
  exact ⟨d.toNat_value hd hraw, (d.inRange_iff _).mp (d.inRange_value hd hraw)⟩

/-! ### Choose minimises (width, selector) (R85) -/

/-- Alternative `a` comes no later than `b` in the order by width and then by selector (R85). -/
def Quad.Precedes (D : Quad Desc) (a b : BitVec 2) : Prop :=
  (D.get a).width < (D.get b).width ∨ ((D.get a).width = (D.get b).width ∧ a.toNat ≤ b.toNat)

section
variable {D : Quad Desc} {v : Word} {a b c : BitVec 2} {best : Option (BitVec 2)}

theorem Quad.Precedes.refl (D : Quad Desc) (a : BitVec 2) : D.Precedes a a := .inr ⟨rfl, le_rfl⟩

theorem Quad.Precedes.trans (hab : D.Precedes a b) (hbc : D.Precedes b c) : D.Precedes a c := by
  unfold Quad.Precedes at *
  omega

theorem Quad.Precedes.antisymm (hab : D.Precedes a b) (hba : D.Precedes b a) : a = b := by
  unfold Quad.Precedes at *
  apply BitVec.eq_of_toNat_eq
  omega

/-- An alternative whose range holds `v` replaces the best so far by the earlier of the two in the order. -/
theorem betterAlt_of_inRange (ha : (D.get a).inRange v = true) (hle : ∀ b ∈ best, b.toNat ≤ a.toNat) :
    ∃ c, betterAlt D v best a = some c ∧ D.Precedes c a ∧ (∀ b ∈ best, D.Precedes c b) ∧ c.toNat ≤ a.toNat := by
  cases best with
  | none => exact ⟨a, by simp [betterAlt, ha], .refl D a, nofun, le_rfl⟩
  | some b =>
    have hba : b.toNat ≤ a.toNat := hle b rfl
    by_cases hw : (D.get a).width < (D.get b).width
    · refine ⟨a, by simp [betterAlt, ha, hw], .refl D a, fun c hc => ?_, le_rfl⟩
      cases hc
      exact .inl hw
    · refine ⟨b, by simp [betterAlt, ha, hw], ?_, fun c hc => ?_, hba⟩
      · unfold Quad.Precedes
        omega
      · cases hc
        exact .refl D b

/-- Over selectors in rising order, the fold ends with one that comes no later than the best at the start and than every
selector of the list whose range holds `v`. -/
theorem foldl_betterAlt_precedes (l : List (BitVec 2)) (hl : l.Pairwise (·.toNat ≤ ·.toNat))
    (hle : ∀ b ∈ best, ∀ a ∈ l, b.toNat ≤ a.toNat) (h : l.foldl (betterAlt D v) best = some c) :
    (∀ b ∈ best, D.Precedes c b) ∧ ∀ a ∈ l, (D.get a).inRange v = true → D.Precedes c a := by
  induction l generalizing best with
  | nil =>
    refine ⟨fun b hb => ?_, nofun⟩
    cases hb.symm.trans h
    exact .refl D c
  | cons a l ih =>
    obtain ⟨hal, hl⟩ := List.pairwise_cons.mp hl
    rw [List.foldl_cons] at h
    cases ha : (D.get a).inRange v with
    | false =>
      have hkeep : betterAlt D v best a = best := by simp [betterAlt, ha]
      rw [hkeep] at h
      obtain ⟨hbest, hrest⟩ := ih hl (fun b hb x hx => hle b hb x (.tail a hx)) h
      exact ⟨hbest, List.forall_mem_cons.mpr ⟨fun hin => absurd hin (by simp [ha]), hrest⟩⟩
    | true =>
      obtain ⟨m, hm, hma, hmb, hmle⟩ := betterAlt_of_inRange ha fun b hb => hle b hb a (.head l)
      rw [hm] at h
      have hml (b) (hb : b ∈ some m) (x) (hx : x ∈ l) : b.toNat ≤ x.toNat := by
        cases hb
        exact hmle.trans (hal x hx)
      obtain ⟨hbest, hrest⟩ := ih hl hml h
      have hcm : D.Precedes c m := hbest m rfl
      exact ⟨fun b hb => hcm.trans (hmb b hb), List.forall_mem_cons.mpr ⟨fun _ => hcm.trans hma, hrest⟩⟩

/-- What Choose picks comes no later than any alternative whose range holds the value (R85). -/
theorem precedes_of_choose (h : choose D v = some c) (ha : (D.get a).inRange v = true) : D.Precedes c a := by
  have hmem : a ∈ [0#2, 1#2, 2#2, 3#2] := by simpa using sel_cases a
  exact (foldl_betterAlt_precedes _ (by decide) (by simp) h).2 a hmem ha

/-- Choose picks the first, by width and then by selector, of the alternatives whose range holds the value (R85). -/
theorem choose_eq_some_iff (D : Quad Desc) (v : Word) (sel : BitVec 2) : choose D v = some sel ↔
    (D.get sel).inRange v = true ∧ ∀ sel', (D.get sel').inRange v = true → D.Precedes sel sel' := by
  refine ⟨fun h => ⟨inRange_of_choose D v sel h, fun _ => precedes_of_choose h⟩, fun ⟨hin, hfirst⟩ => ?_⟩
  obtain ⟨c, hc⟩ := exists_choose_of_inRange hin
  rw [hc, (precedes_of_choose hc hin).antisymm (hfirst c (inRange_of_choose D v c hc))]

theorem choose_eq_none_iff (D : Quad Desc) (v : Word) : choose D v = none ↔ ∀ sel, (D.get sel).inRange v = false := by
  refine ⟨fun hn sel => Bool.eq_false_iff.mpr fun hin => ?_, fun h => Option.eq_none_iff_forall_ne_some.mpr fun c hc => ?_⟩
  · obtain ⟨c, hc⟩ := exists_choose_of_inRange hin
    exact nomatch hn.symm.trans hc
  · exact nomatch (h c).symm.trans (inRange_of_choose D v c hc)

end

/-- Settles O11: the fold over the selectors keeps the earliest of the narrowest. -/
theorem choosePicksNarrowestThenEarliest : Obligations.ChoosePicksNarrowestThenEarliest := fun D v =>
  ⟨choose_eq_none_iff D v, choose_eq_some_iff D v⟩

/-! ### Disjoint tables (R65) -/

theorem Desc.apart_comm (d e : Desc) : d.apart e = e.apart d := Bool.or_comm _ _

/-- No value is in two ranges that are apart. -/
theorem Desc.not_inRange_of_apart {d e : Desc} (h : d.apart e = true) {v : Word} (hd : d.inRange v = true) :
    ¬ e.inRange v = true := by
  rw [Desc.apart, Bool.or_eq_true, decide_eq_true_iff, decide_eq_true_iff] at h
  rw [Desc.inRange_iff] at hd ⊢
  omega

/-- The ranges of any two entries of a disjoint table are apart (R65). -/
theorem Quad.apart_of_disjoint {D : Quad Desc} (h : D.disjoint = true) {a b : BitVec 2} (hab : a ≠ b) :
    (D.get a).apart (D.get b) = true := by
  simp only [Quad.disjoint, Bool.and_eq_true] at h
  obtain ⟨⟨⟨⟨⟨h01, h02⟩, h03⟩, h12⟩, h13⟩, h23⟩ := h
  rcases sel_cases a with rfl | rfl | rfl | rfl <;> rcases sel_cases b with rfl | rfl | rfl | rfl <;>
    simp_all [Desc.apart_comm]

/-- Under a disjoint table the only alternative whose range holds a value is chosen (R65, R85). -/
theorem choose_of_disjoint {D : Quad Desc} (h : D.disjoint = true) {v : Word} {sel : BitVec 2}
    (hin : (D.get sel).inRange v = true) : choose D v = some sel := by
  refine (choose_eq_some_iff D v sel).mpr ⟨hin, fun sel' hin' => ?_⟩
  by_cases hs : sel = sel'
  · exact hs ▸ .refl D sel
  · exact absurd hin' (Desc.not_inRange_of_apart (Quad.apart_of_disjoint h hs) hin)

/-! ### The wire form (R66, R67) -/

/-- The two selector bits, least significant first (R66). -/
theorem bitsOfNat_two (sel : BitVec 2) : bitsOfNat 2 sel.toNat = [sel.getLsbD 0, sel.getLsbD 1] := rfl

/-- The selector at the front of a stream reads back, whatever follows (R66). -/
theorem peekBits_selector (sel : BitVec 2) (rest : BitString) :
    peekBits 2 ([sel.getLsbD 0, sel.getLsbD 1] ++ rest) = sel.toNat :=
  bitsOfNat_two sel ▸ peekBits_bitsOfNat_append rest sel.isLt

end Sys2Proof

namespace Sys2Proof.Machine

/-! ### DEC, ENC and SIZE that complete (R87-R89) -/

section
variable {s : State} {t : BitVec 8} {D : Quad Desc} {sel : BitVec 2}

/-- A command that passes the gate and completes ends in the state it completes in, its words consumed (R54). -/
theorem exec_done {i : Instr} {u : State} (hi : i ≠ .clrerr) (he : s.err = 0#4) (hv : verdictOf s i = .done u) :
    exec i s = .next (u.consume i.format) := by
  rw [exec_eq_gated i s hi, gated_run _ _ _ he, hv]
  rfl

/-- DEC of a compressed integer at the head of IN (R66, R67, R87). -/
theorem exec_dec_of_inBits {raw rest : BitString} (he : s.err = 0#4) (hr : s.readyAt t D)
    (hin : s.inBits = [sel.getLsbD 0, sel.getLsbD 1] ++ raw ++ rest) (hraw : raw.length = (D.get sel).width)
    (hf : s.rsp.length < s.params.rspDepth) :
    exec (.dec t) s = .next { s with
      inBits := rest
      rsp := s.rsp ++ [(D.get sel).value (bitsToNat raw)]
      lsel := sel
      llen := BitVec.ofNat 6 (2 + (D.get sel).width)
      cmdq := s.cmdq.tail } := by
  have hwire : ([sel.getLsbD 0, sel.getLsbD 1] ++ raw).length = 2 + (D.get sel).width := by
    rw [List.length_append, hraw]
    rfl
  have hsel : BitVec.ofNat 2 (peekBits 2 s.inBits) = sel := by
    rw [hin, List.append_assoc, peekBits_selector, BitVec.ofNat_toNat, BitVec.setWidth_eq]
  have hpeek : peekBits (D.get sel).width (s.inBits.drop 2) = bitsToNat raw := by
    rw [hin, ← hraw]
    exact peekBits_append raw rest
  have hdrop : s.inBits.drop (2 + (D.get sel).width) = rest := by
    rw [hin]
    exact List.drop_left' hwire
  have hlong : ¬ s.inputShort D := by
    have hlen : s.inBits.length = 2 + (D.get sel).width + rest.length := by
      rw [hin, List.length_append, hwire]
    rw [State.inputShort, hsel]
    omega
  have hdone : decDone D s = ((s.dropIn (2 + (D.get sel).width)).push
      [(D.get sel).value (bitsToNat raw)]).setResult sel (D.get sel).width := by
    simp only [decDone, hsel, hpeek]
  rw [exec_done (i := .dec t) (by nofun) he (decVerdict_done s t D hr hlong hf), hdone, ← hdrop]
  rfl

/-- DEC of the wire form of a raw number that fits (R87). -/
theorem exec_dec_of_wireBits {raw : Nat} {rest : BitString} (he : s.err = 0#4) (hr : s.readyAt t D)
    (hin : s.inBits = wireBits D sel raw ++ rest) (hraw : raw < 2 ^ (D.get sel).width)
    (hf : s.rsp.length < s.params.rspDepth) :
    ∃ u, exec (.dec t) s = .next u ∧ u.rsp = s.rsp ++ [(D.get sel).value raw] ∧ u.inBits = rest := by
  refine ⟨_, exec_dec_of_inBits he hr hin (length_bitsOfNat _ _) hf, ?_, rfl⟩
  rw [bitsToNat_bitsOfNat, Nat.mod_eq_of_lt hraw]

/-- ENC with the alternative chosen (R88). -/
theorem exec_enc_of_choose {v : Word} (he : s.err = 0#4) (hr : s.readyAt t D) (hc : choose D v = some sel) :
    exec (.enc t v) s = .next { s with
      outBits := s.outBits ++ wireBits D sel ((D.get sel).rawOf v)
      lsel := sel
      llen := BitVec.ofNat 6 (2 + (D.get sel).width)
      pend := none
      cmdq := s.cmdq.tail } :=
  exec_done (i := .enc t v) (by nofun) he (encVerdict_some s t v D sel hr hc)

/-- SIZE with the alternative chosen and a free slot (R89). -/
theorem exec_size_of_choose {v : Word} (he : s.err = 0#4) (hr : s.readyAt t D) (hc : choose D v = some sel)
    (hf : s.rsp.length < s.params.rspDepth) :
    exec (.size t v) s = .next { s with
      rsp := s.rsp ++ [BitVec.ofNat 32 (2 + (D.get sel).width)]
      lsel := sel
      llen := BitVec.ofNat 6 (2 + (D.get sel).width)
      pend := none
      cmdq := s.cmdq.tail } :=
  exec_done (i := .size t v) (by nofun) he (sizeVerdict_done s t v D sel hr hc hf)

end

/-- Settles O24: DEC of a wire form, with its value written out by kind. -/
theorem decPushesTheValueItReads : Obligations.DecPushesTheValueItReads := by
  intro s t D sel raw rest he hr hin hraw hf
  rw [exec_dec_of_inBits he hr hin hraw hf, Desc.value_eq_ite]

/-- Settles O26: the alternative that R85 names is the one Choose picks, and ENC writes its wire form. -/
theorem encAppendsSelectorAndRawBits : Obligations.EncAppendsSelectorAndRawBits := by
  intro s t v D sel he hr hin hfirst
  rw [exec_enc_of_choose he hr ((choose_eq_some_iff D v sel).mpr ⟨hin, hfirst⟩), List.append_assoc]
  rfl

/-- Settles O27: the alternative that R85 names is the one Choose picks, and SIZE pushes its length. -/
theorem sizePushesTheEncodedLength : Obligations.SizePushesTheEncodedLength := by
  intro s t v D sel he hr hin hfirst hf
  exact exec_size_of_choose he hr ((choose_eq_some_iff D v sel).mpr ⟨hin, hfirst⟩) hf

/-! ### SIZE and ENC (R93) -/

/-- ENC and SIZE raise the same error, or both have an alternative for the value (R93). -/
theorem encVerdict_sizeVerdict_cases (s : State) (t : BitVec 8) (v : Word) :
    (∃ e, encVerdict t v s = .raise e s ∧ sizeVerdict t v s = .raise e s) ∨
    ∃ D sel, s.readyAt t D ∧ choose D v = some sel := by
  cases hc : s.checkTable t with
  | error e => exact .inl ⟨e, encVerdict_error s t v e hc, sizeVerdict_error s t v e hc⟩
  | ok D =>
    have hr := (s.checkTable_eq_ok t D).mp hc
    cases hch : choose D v with
    | none => exact .inl ⟨.noAlt, encVerdict_noAlt s t v D hr hch, sizeVerdict_noAlt s t v D hr hch⟩
    | some sel => exact .inr ⟨D, sel, hr, hch⟩

/-- Settles O31: both are discarded, both raise, or both use the alternative that Choose picks. -/
theorem sizeAgreesWithEnc : Obligations.SizeAgreesWithEnc := by
  intro s t v hle
  have henc : exec (.enc t v) s = gated .hp s (encVerdict t v s) := rfl
  have hsize : exec (.size t v) s = gated .hp s (sizeVerdict t v s) := rfl
  by_cases he : s.err = 0#4
  · rcases encVerdict_sizeVerdict_cases s t v with ⟨e, hev, hsv⟩ | ⟨D, sel, hr, hc⟩
    · rw [henc, hsize, hev, hsv, gated_run _ _ _ he]
      exact ⟨_, rfl, fun _ => rfl, fun h => absurd h e.code_ne_zero, fun h => absurd h e.code_ne_zero⟩
    · refine ⟨_, exec_enc_of_choose he hr hc, fun h => absurd he h,
        fun _ hf => ⟨_, exec_size_of_choose he hr hc hf, ?_, he, rfl, rfl, rfl, rfl⟩, fun _ hf => ?_⟩
      · rw [List.length_append, Nat.add_sub_cancel_left, length_wireBits]
      · rw [hsize, gated_run _ _ _ he, sizeVerdict_full s t v D sel hr hc hf]
        rfl
  · rw [henc, hsize, gated_discard _ _ _ he hle, gated_discard _ _ _ he hle]
    exact ⟨_, rfl, fun _ => rfl, fun h => absurd h he, fun h => absurd h he⟩

/-! ### The round trips (R90, R91) -/

/-- Settles O32: ENC writes the wire form of `v - param`, which fits, and DEC reads its value, which is `v`. -/
theorem decReadsBackWhatEncWrote : Obligations.DecReadsBackWhatEncWrote := by
  intro s t D v sel he hr hlegal hc
  have hin := inRange_of_choose D v sel hc
  refine ⟨_, _, exec_enc_of_choose he hr hc, rfl, length_wireBits _ _ _, fun s' rest he' hr' hin' hf' => ?_⟩
  obtain ⟨u, hu, hrsp, hrest⟩ := exec_dec_of_wireBits he' hr' hin' (Desc.rawOf_lt (hlegal sel) hin) hf'
  exact ⟨u, hu, by rw [hrsp, Desc.value_rawOf (hlegal sel) hin], hrest⟩

/-- R91 in full: what DEC decodes from a wire form under a disjoint legal table, ENC writes back as that wire form. -/
theorem enc_writes_what_dec_read {s : State} {t : BitVec 8} {D : Quad Desc} {sel : BitVec 2} {raw : Nat}
    (he : s.err = 0#4) (hr : s.readyAt t D) (hlegal : ∀ a, (D.get a).isLegal = true) (hdis : D.disjoint = true)
    (hraw : raw < 2 ^ (D.get sel).width) :
    ∃ u, exec (.enc t ((D.get sel).value raw)) s = .next u ∧ u.outBits = s.outBits ++ wireBits D sel raw := by
  have hc := choose_of_disjoint hdis (Desc.inRange_value (hlegal sel) hraw)
  exact ⟨_, exec_enc_of_choose he hr hc, by rw [Desc.rawOf_value (hlegal sel) hraw]⟩

/-- The spec's table TB, whose ranges meet (95_test_vectors.md part 2). -/
def overlappingTable : Quad Desc := ⟨⟨.val, 0#6, 0#32⟩, ⟨.val, 0#6, 1#32⟩, ⟨.bits, 8#6, 0#32⟩, ⟨.bits, 32#6, 0#32⟩⟩

/-- The machine after reset with TB as table 0, and R91's `01 00000000` in IN. -/
def overlappingState : State := { State.reset with
  tbl := [⟨some overlappingTable.e0, some overlappingTable.e1, some overlappingTable.e2, some overlappingTable.e3⟩]
  inBits := [false, true] ++ List.replicate 8 false }

theorem overlappingState_readyAt : overlappingState.readyAt 0#8 overlappingTable :=
  ⟨_, rfl, (Quad.ready?_eq_some _ _).mp rfl⟩

/-- Settles O33: under a disjoint table the alternative read is the only one for its value; under TB the value 0, read by
alternative 2, has alternative 0 as a narrower one. -/
theorem disjointTableReencodesTheSameBits : Obligations.DisjointTableReencodesTheSameBits := by
  constructor
  · intro s t D sel raw rest he hr hlegal hdis hraw hin hf
    obtain ⟨u, hu, hrsp, hrest⟩ := exec_dec_of_wireBits he hr hin hraw hf
    exact ⟨u, _, hu, hrsp, hrest, fun s' he' hr' => enc_writes_what_dec_read he' hr' hlegal hdis hraw⟩
  · have hready := overlappingState_readyAt
    have hin : overlappingState.inBits = wireBits overlappingTable 2#2 0 ++ [] := by decide
    obtain ⟨u, hu, hrsp, hrest⟩ := exec_dec_of_wireBits rfl hready hin (by decide) (by decide)
    have hc : choose overlappingTable 0#32 = some 0#2 := by decide
    exact ⟨overlappingState, overlappingTable, rfl, rfl, hready, by decide, rfl, u, _, hu, hrsp, hrest,
      exec_enc_of_choose rfl hready hc, rfl⟩

end Sys2Proof.Machine

/-! SUPPORT. The table commands (41_table.md R100-R103): the info word, what TBL.WR and TBL.RD do when they complete, what they
leave unchanged, and that no step but the host's Reset makes a valid entry invalid. -/

namespace Sys2Proof

/-! ### The info word (R102) -/

/-- The fields of the info word fit below bit 32. -/
theorem Desc.toNat_info (d : Desc) : d.info.toNat = 2 ^ 31 + d.kind.code.toNat * 2 ^ 16 + d.n.toNat * 2 ^ 10 := by
  have hn : d.n.toNat < 2 ^ 6 := d.n.isLt
  have hk : d.kind.code.toNat < 2 ^ 2 := d.kind.code.isLt
  rw [Desc.info_eq_ofNat, BitVec.toNat_ofNat, Nat.mod_eq_of_lt (by omega)]

/-- Settles O12: the fields do not overlap, and each kind has its code; a legal VAL has n = 0. -/
theorem infoWordHoldsKindAndWidth : Obligations.InfoWordHoldsKindAndWidth := by
  intro d
  refine ⟨d.toNat_info, fun h hk => ?_, fun hk => ?_, fun hk => ?_⟩
  · have hn : d.n = 0#6 := by simpa only [hk] using d.isLegal_iff.mp h
    simp [Desc.info, hk, hn, Kind.code]
  · simp [Desc.info, hk, Kind.code]
  · simp [Desc.info, hk, Kind.code]

end Sys2Proof

namespace Sys2Proof.Machine

/-! ### TBL.RD and TBL.WR that complete (R100, R101) -/

section
variable {s : State} {t : BitVec 8} {sel k : BitVec 2} {n : BitVec 6} {p : Word} {T : Table}

/-- An entry that is there is in a table that is there (R21, R41). -/
theorem State.table?_of_entryAt {e : Entry} (h : entryAt s.tbl t sel = some e) :
    ∃ T, s.table? t = some T ∧ T.get sel = e :=
  Option.map_eq_some_iff.mp (entryAt_tbl s t sel ▸ h)

/-- TBL.RD of an entry that is there, with two free slots (R101). -/
theorem exec_tblRd_of_entryAt {e : Entry} (he : s.err = 0#4) (hroom : s.rsp.length + 2 ≤ s.params.rspDepth)
    (h : entryAt s.tbl t sel = some e) :
    exec (.tblRd t sel) s = .next { s with rsp := s.rsp ++ entryWords e, cmdq := s.cmdq.tail } := by
  obtain ⟨T, hT, rfl⟩ := State.table?_of_entryAt h
  exact exec_done (i := .tblRd t sel) (by nofun) he (tblRdVerdict_done s t sel T hT hroom)

/-- TBL.WR of fields that make a descriptor, to a table that is there (R100). -/
theorem exec_tblWr_of_ofFields {d : Desc} (he : s.err = 0#4) (hT : s.table? t = some T)
    (hd : Desc.ofFields k n p = some d) :
    exec (.tblWr t sel k n p) s =
      .next { s with tbl := s.tbl.set t.toNat (T.set sel (some d)), pend := none, cmdq := s.cmdq.tail } :=
  exec_done (i := .tblWr t sel k n p) (by nofun) he (tblWrVerdict_legal s t sel k n p T d hT hd)

/-- Read after write of one entry: it alone changes (R100). -/
theorem entryAt_setEntry (hT : s.table? t = some T) (e : Entry) (t' : BitVec 8) (sel' : BitVec 2) :
    entryAt (s.tbl.set t.toNat (T.set sel e)) t' sel' =
      if t' = t ∧ sel' = sel then some e else entryAt s.tbl t' sel' := by
  rw [entryAt_set _ _ _ _ _ (State.lt_numTables_of_table? hT), Quad.get_set]
  by_cases ht : t' = t
  · subst ht
    by_cases hs : sel' = sel <;> simp [hs, entryAt_tbl, hT]
  · simp [ht]

end

/-- Settles O37: the two words of the entry, the info word written as a number. -/
theorem tblRdPushesInfoAndParam : Obligations.TblRdPushesInfoAndParam := by
  intro s t sel he hroom
  refine ⟨fun d hd => ?_, exec_tblRd_of_entryAt he hroom⟩
  rw [exec_tblRd_of_entryAt he hroom hd, entryWords, Desc.info_eq_ofNat]

/-- Settles O35: legal fields make the descriptor that is written, and the write is to its entry alone. -/
theorem tblWrWritesExactlyOneEntry : Obligations.TblWrWritesExactlyOneEntry := by
  intro s t sel k n p he ht hleg
  obtain ⟨T, hT⟩ := s.table?_eq_some t ht
  obtain ⟨d, hd, hk, hn, hp, -⟩ := Desc.ofFields_of_legal k n p ((legal_iff k n p).mpr hleg)
  exact ⟨_, d, exec_tblWr_of_ofFields he hT hd, List.length_set, hk, hn, hp, entryAt_setEntry hT (some d)⟩

/-! ### What TBL.WR and TBL.RD leave (R26, R103, R129) -/

/-- `u` has IN, OUT and the draws of `s`. -/
def State.SameStreams (s u : State) : Prop := u.inBits = s.inBits ∧ u.outBits = s.outBits ∧ u.draws = s.draws

theorem State.SameStreams.refl (s : State) : s.SameStreams s := ⟨rfl, rfl, rfl⟩

/-- What a TBL.WR to TBL[t][sel] leaves: the streams, RSP and every other entry (R100). -/
def State.SameTblWr (t : BitVec 8) (sel : BitVec 2) (s u : State) : Prop :=
  s.SameStreams u ∧ u.rsp = s.rsp ∧ ∀ t' sel', ¬ (t' = t ∧ sel' = sel) → entryAt u.tbl t' sel' = entryAt s.tbl t' sel'

theorem State.SameTblWr.refl (t : BitVec 8) (sel : BitVec 2) (s : State) : s.SameTblWr t sel s :=
  ⟨.refl s, rfl, fun _ _ _ => rfl⟩

/-- What TBL.RD leaves: the streams and the tables (R101). -/
def State.SameTblRd (s u : State) : Prop := s.SameStreams u ∧ u.tbl = s.tbl

theorem State.SameTblRd.refl (s : State) : s.SameTblRd s := ⟨.refl s, rfl⟩

theorem tblWrVerdict_sameTblWr (t : BitVec 8) (sel k : BitVec 2) (n : BitVec 6) (p : Word) (s : State) :
    (tblWrVerdict t sel k n p s).Carries (s.SameTblWr t sel) := by
  cases hT : s.table? t with
  | none =>
    rw [tblWrVerdict_tindex s t sel k n p hT]
    exact .refl t sel s
  | some T =>
    cases hd : Desc.ofFields k n p with
    | none =>
      rw [tblWrVerdict_desc s t sel k n p T hT hd]
      exact .refl t sel s
    | some d =>
      rw [tblWrVerdict_legal s t sel k n p T d hT hd]
      exact ⟨.refl s, rfl, fun t' sel' hne => (entryAt_setEntry hT (some d) t' sel').trans (if_neg hne)⟩

theorem tblRdVerdict_sameTblRd (t : BitVec 8) (sel : BitVec 2) (s : State) :
    (tblRdVerdict t sel s).Carries s.SameTblRd := by
  cases hT : s.table? t with
  | none =>
    rw [tblRdVerdict_tindex s t sel hT]
    exact .refl s
  | some T =>
    rcases Nat.lt_or_ge s.params.rspDepth (s.rsp.length + 2) with hf | hf
    · rw [tblRdVerdict_full s t sel T hT hf]
      trivial
    · rw [tblRdVerdict_done s t sel T hT hf]
      exact .refl s

/-- A property of the state that a command's verdict carries, kept by consuming words and raising an error, holds of the
state the command ends in, discarded or not. -/
theorem exec_of_carries {P : State → Prop} {i : Instr} {s u : State} (hi : i ≠ .clrerr) (h : exec i s = .next u)
    (hv : (verdictOf s i).Carries P) (hs : P s) (hc : ∀ t, P t → P (t.consume i.format))
    (hr : ∀ e t, P t → P (t.raiseError e)) : P u := by
  obtain ⟨hclr, -⟩ | ⟨-, -, rfl⟩ | ⟨-, -, rfl⟩ := exec_cases h
  · exact absurd hclr hi
  · exact hc s hs
  · exact settle_of_carries hv hs hc hr

theorem exec_tblWr_sameTblWr {t : BitVec 8} {sel k : BitVec 2} {n : BitVec 6} {p : Word} {s u : State}
    (h : exec (.tblWr t sel k n p) s = .next u) : s.SameTblWr t sel u :=
  exec_of_carries (by nofun) h (tblWrVerdict_sameTblWr t sel k n p s) (.refl t sel s) (fun _ ht => ht) (fun _ _ ht => ht)

theorem exec_tblRd_sameTblRd {t : BitVec 8} {sel : BitVec 2} {s u : State} (h : exec (.tblRd t sel) s = .next u) :
    s.SameTblRd u :=
  exec_of_carries (by nofun) h (tblRdVerdict_sameTblRd t sel s) (.refl s) (fun _ ht => ht) (fun _ _ ht => ht)

/-- Settles O51: what no command writes, what only a codec command writes, and what each table command leaves. -/
theorem tableCommandsLeaveTheRestAlone : Obligations.TableCommandsLeaveTheRestAlone := by
  intro i s u t sel k n p hi h
  obtain ⟨hparams, heos, hagenda, hseen⟩ := exec_sameRest h
  have hcodec : i.isCodec = false := by rcases hi with rfl | rfl <;> rfl
  obtain ⟨hlsel, hllen⟩ := exec_sameResult h (.inr (.inr hcodec))
  rcases hi with rfl | rfl
  · obtain ⟨⟨hin, hout, hdraws⟩, hrsp, hentries⟩ := exec_tblWr_sameTblWr h
    exact ⟨hin, heos, hout, hlsel, hllen, hparams, hdraws, hagenda, hseen, fun _ => ⟨hrsp, hentries⟩, nofun⟩
  · obtain ⟨⟨hin, hout, hdraws⟩, htbl⟩ := exec_tblRd_sameTblRd h
    exact ⟨hin, heos, hout, hlsel, hllen, hparams, hdraws, hagenda, hseen, nofun, fun _ => ⟨htbl, exec_same_pend rfl h⟩⟩

/-! ### Valid entries stay valid (R103) -/

/-- `u` has the parameters and the number of tables of `s`, and each of its valid entries is valid in `u` (R38, R103). -/
def State.KeepsTables (s u : State) : Prop :=
  u.params = s.params ∧ u.numTables = s.numTables ∧
    ∀ t sel, (∃ d, entryAt s.tbl t sel = some (some d)) → ∃ d, entryAt u.tbl t sel = some (some d)

theorem State.KeepsTables.refl (s : State) : s.KeepsTables s := ⟨rfl, rfl, fun _ _ h => h⟩

/-- A valid descriptor written to one entry (R100). -/
theorem State.keepsTables_setEntry {s : State} {t : BitVec 8} {T : Table} (hT : s.table? t = some T) (sel : BitVec 2)
    (d : Desc) : s.KeepsTables (s.setTable t (T.set sel (some d))) := by
  refine ⟨rfl, List.length_set, fun t' sel' hvalid => ?_⟩
  rw [State.setTable_tbl, entryAt_setEntry hT]
  split
  · exact ⟨d, rfl⟩
  · exact hvalid

/-- Of the commands only TBL.WR that completes writes to the tables. -/
theorem verdictOf_keepsTables (i : Instr) (s : State) : (verdictOf s i).Carries s.KeepsTables := by
  rcases verdictOf_cases i s with hv | ⟨e, hv, -⟩ | ⟨t, -, -, hv⟩ | ⟨-, hv⟩ | ⟨t, D, -, -, -, -, hv⟩ |
    ⟨t, v, D, sel, -, -, -, hv⟩ | ⟨t, v, D, sel, -, -, -, -, hv⟩ | ⟨t, sel, k, n, p, T, d, -, hT, -, hv⟩ |
    ⟨t, sel, T, -, -, -, hv⟩ <;> rw [hv]
  · trivial
  · exact .refl s
  · exact .refl s
  · exact .refl s
  · exact .refl s
  · exact .refl s
  · exact .refl s
  · exact State.keepsTables_setEntry hT sel d
  · exact .refl s

theorem runCommand_keepsTables {w p : Word} {s u : State} (h : runCommand w p s = .next u) : s.KeepsTables u := by
  obtain ⟨-, ⟨-, rfl⟩ | ⟨-, -, rfl⟩ | ⟨-, -, rfl⟩⟩ := runCommand_cases h
  · exact .refl s
  · exact .refl s
  · exact settle_of_carries (wordVerdict_carries (verdictOf_keepsTables · s) (.refl s) w p) (.refl s) (fun _ ht => ht)
      (fun _ _ ht => ht)

theorem cicStep_keepsTables {s u : State} (h : cicStep s = .next u) : s.KeepsTables u := by
  rcases cicStep_cases s with ⟨-, hs⟩ | ⟨w, rest, -, -, -, hs⟩ | ⟨w, rest, -, -, -, hs⟩ | ⟨w, p, rest, -, -, hs⟩ <;>
    rw [hs] at h
  · cases h
    exact .refl s
  · cases h
    exact .refl s
  · exact runCommand_keepsTables h
  · exact runCommand_keepsTables h

/-- Of the host's actions only Reset reaches the tables (R55, R103). -/
theorem hostAct_keepsTables {a : HostAction} {s u : State} (ha : a ≠ .reset) (h : hostAct a s = .next u) :
    s.KeepsTables u := by
  rcases hostAct_cases h with ⟨w, -, rfl⟩ | ⟨bs, -, -, rfl⟩ | ⟨-, rfl⟩ | ⟨-, rfl⟩ | ⟨w, ws, -, -, rfl⟩ | ⟨k, -, -, rfl⟩ |
    ⟨-, -, rfl⟩ | ⟨hreset, -⟩
  · exact .refl s
  · exact .refl s
  · exact .refl s
  · exact .refl s
  · exact .refl s
  · exact .refl s
  · exact .refl s
  · exact absurd hreset ha

/-- Every step but the host's Reset: the agenda is what else the turn changes (R56). -/
theorem step_keepsTables {s u : State} (hreset : ∀ as, s.agenda ≠ .host .reset :: as) (h : step s = .next u) :
    s.KeepsTables u := by
  rcases step_cases s with ⟨-, hs⟩ | ⟨as, -, hs⟩ | ⟨a, as, hag, hs⟩ <;> rw [hs] at h
  · exact cicStep_keepsTables h
  · exact cicStep_keepsTables (s := s.withAgenda as) h
  · exact hostAct_keepsTables (s := s.withAgenda as) (fun ha => hreset as (ha ▸ hag)) h

/-- Settles O49: every other step keeps the tables, and Reset gives a well-formed state as many tables as it had. -/
theorem readyTableStaysReadyUntilReset : Obligations.ReadyTableStaysReadyUntilReset := by
  intro s u hwf h
  by_cases hreset : ∃ as, s.agenda = .host .reset :: as
  · obtain ⟨as, hag⟩ := hreset
    have hu : u = (s.withAgenda as).resetCic := by
      rw [step, hag] at h
      cases h
      rfl
    subst hu
    exact ⟨rfl, hwf.tables.symm, fun hne => absurd hag (hne as)⟩
  · obtain ⟨hparams, hnum, hvalid⟩ := step_keepsTables (fun as hag => hreset ⟨as, hag⟩) h
    exact ⟨hparams, hnum, fun _ => hvalid⟩

end Sys2Proof.Machine

/-! SUPPORT. The control commands (42_control.md R110, R111): a command that changes nothing itself ends alike run or discarded,
and CLRERR passes the gate. -/

namespace Sys2Proof.Machine

/-- Where the verdict is the state as it is, running the command and discarding it have the same end (R54, R130). -/
theorem exec_of_done_self {i : Instr} {s : State} (hi : i ≠ .clrerr) (hr : s.err.toNat ≤ 6)
    (hv : verdictOf s i = .done s) : exec i s = .next (s.consume i.format) := by
  by_cases he : s.err = 0#4
  · exact exec_done hi he hv
  · rw [exec_eq_gated i s hi, gated_discard _ _ _ he hr]

/-- Settles O22: NOP's verdict is the state as it is, so it only consumes its word, run or discarded. -/
theorem nopOnlyConsumesItsWord : Obligations.NopOnlyConsumesItsWord := by
  intro s hr
  have hv : verdictOf s .nop = .done s := rfl
  exact exec_of_done_self (by nofun) hr hv

/-- Settles O23: CLRERR passes the gate at every code that is not reserved, and its two updates leave all but ERR and CMDQ. -/
theorem clrerrOnlyClearsErr : Obligations.ClrerrOnlyClearsErr := by
  intro s hr
  exact exec_clrerr s hr

end Sys2Proof.Machine

/-! SUPPORT. Errors (60_exceptions.md R121-R133): what a command that raises or is discarded does to the state, the first error
of each command's priority list, and the fault mark over every step. -/

namespace Sys2Proof

/-- A 1-word header is one with another OP than 2, 3 and 4 (R73). -/
theorem wordLen_eq_one_iff (w : Word) : wordLen w = 1 ↔ opOf w ∉ [2#4, 3#4, 4#4] := by
  rw [← wordLen_eq_two_iff]
  rcases wordLen_cases w with h | h <;> simp [h]

theorem formatOf_of_op_notMem {w : Word} (hop : opOf w ∉ [2#4, 3#4, 4#4]) : formatOf w = .h :=
  (formatOf_eq_h_iff w).mpr ((wordLen_eq_one_iff w).mpr hop)

theorem formatOf_eq_hp_iff (w : Word) : formatOf w = .hp ↔ opOf w ∈ [2#4, 3#4, 4#4] := by
  rw [← wordLen_eq_two_iff]
  rcases wordLen_cases w with h | h <;> simp [formatOf, h]

/-- The 2-word commands are those of format HP (R72). -/
theorem length_encode_eq_two_iff (i : Instr) : (encode i).length = 2 ↔ i.format = .hp :=
  match i with
  | .nop => Laws.EncodedLength.nop.2
  | .dec t => (Laws.EncodedLength.dec t).2
  | .enc t v => (Laws.EncodedLength.enc t v).2
  | .size t v => (Laws.EncodedLength.size t v).2
  | .tblWr t s k n p => (Laws.EncodedLength.tblWr t s k n p).2
  | .tblRd t s => (Laws.EncodedLength.tblRd t s).2
  | .clrerr => Laws.EncodedLength.clrerr.2

end Sys2Proof

namespace Sys2Proof.Machine

/-- Settles O17: CLRERR refuses by itself, and the gate refuses every other command. -/
theorem reservedErrorCodeIsRefused : Obligations.ReservedErrorCodeIsRefused := exec_reserved

/-! ### Consuming a command's words (R54) -/

theorem State.consume_eq (s : State) (f : Format) :
    s.consume f = { s with cmdq := s.cmdq.tail, pend := if f = .hp then none else s.pend } := by
  cases f <;> rfl

/-- The words of a header are consumed by its OP (R73). -/
theorem State.consume_formatOf (s : State) (w : Word) : s.consume (formatOf w) =
    { s with cmdq := s.cmdq.tail, pend := if opOf w ∈ [2#4, 3#4, 4#4] then none else s.pend } := by
  rw [State.consume_eq, if_congr (formatOf_eq_hp_iff w) rfl rfl]

/-- The words of a command are consumed by their number (R72). -/
theorem State.consume_format (s : State) (i : Instr) : s.consume i.format =
    { s with cmdq := s.cmdq.tail, pend := if (encode i).length = 2 then none else s.pend } := by
  rw [State.consume_eq, if_congr (length_encode_eq_two_iff i) rfl rfl]

/-! ### Words that are no command (R122), and discarded words (R130) -/

section
variable {w p : Word} {rest : List Word} {s : State}

theorem runCommand_illegal (he : s.err = 0#4) (h : illegalHeader w) :
    runCommand w p s = .next ((s.raiseError .illegal).consume (formatOf w)) := by
  obtain ⟨e, hd⟩ := (decode_eq_error_iff w p).mpr h
  rw [runCommand, hd]
  exact gated_run _ _ _ he

theorem runCommand_discard (hw : w ≠ 0xF0000000#32) (he : s.err ≠ 0#4) (hr : s.err.toNat ≤ 6) :
    runCommand w p s = .next (s.consume (formatOf w)) := by
  rw [runCommand_eq_gated w p s hw, gated_discard _ _ _ he hr]

/-- The CIC's turn with a 1-word header in CMDQ (R54). -/
theorem cicStep_of_op_notMem (hop : opOf w ∉ [2#4, 3#4, 4#4]) (hp : s.pend = none) (hq : s.cmdq = w :: rest) :
    cicStep s = runCommand w 0#32 s :=
  cicStep_one s w rest hp hq ((wordLen_eq_one_iff w).mpr hop)

/-- A 1-word command's word leaves CMDQ (R54). -/
theorem State.consume_h_of_cmdq (hq : s.cmdq = w :: rest) : s.consume .h = { s with cmdq := rest } := by
  simp [State.consume, hq]

/-- A 2-word command's payload leaves CMDQ, and its header PEND (R54). -/
theorem State.consume_hp_of_cmdq (hq : s.cmdq = p :: rest) : s.consume .hp = { s with cmdq := rest, pend := none } := by
  simp [State.consume, hq]

end

/-- Settles O15: the header and its payload word decode to nothing, so the gate lets ILLEGAL through, with the words of the
header's format. -/
theorem illegalHeaderRaisesIllegal : Obligations.IllegalHeaderRaisesIllegal := by
  refine fun s he => ⟨fun w rest hill hop hp hq => ?_, fun w p rest hill hop hp hq => ?_⟩
  · rw [cicStep_of_op_notMem hop hp hq, runCommand_illegal he hill, formatOf_of_op_notMem hop]
    exact congrArg _ (State.consume_h_of_cmdq (s := s.raiseError .illegal) hq)
  · rw [cicStep_two s w p rest hp hq, runCommand_illegal he hill, (formatOf_eq_hp_iff w).mpr hop]
    exact congrArg _ (State.consume_hp_of_cmdq (s := s.raiseError .illegal) hq)

/-- Settles O16: the gate discards every word but CLRERR with the words of its format, and framing does not look at ERR. -/
theorem discardedCommandOnlyLosesItsWords : Obligations.DiscardedCommandOnlyLosesItsWords := by
  refine fun s he hr => ⟨fun w rest hop hw hp hq => ?_, fun w rest hop hp hq => ?_, fun w p rest hop hp hq => ?_,
    fun rest hp hq => ?_⟩
  · rw [cicStep_of_op_notMem hop hp hq, runCommand_discard hw he hr, formatOf_of_op_notMem hop, State.consume_h_of_cmdq hq]
  · exact cicStep_frame s w rest hp hq ((wordLen_eq_two_iff w).mpr hop)
  · have hw : w ≠ 0xF0000000#32 := by
      rintro rfl
      exact absurd hop (by decide)
    rw [cicStep_two s w p rest hp hq, runCommand_discard hw he hr, (formatOf_eq_hp_iff w).mpr hop,
      State.consume_hp_of_cmdq hq]
  · have hclr : runCommand 0xF0000000#32 0#32 s = .next (s.clearError.consume .h) :=
      (runCommand_clrerr 0#32 s).trans (exec_clrerr s hr)
    rw [cicStep_of_op_notMem (by decide) hp hq, hclr]
    exact congrArg _ (State.consume_h_of_cmdq (s := s.clearError) hq)

/-! ### Commands that raise (R123-R127) -/

/-- A command that passes the gate and raises ends with ERR and the mark set, its words consumed (R129, R133). -/
theorem exec_raise {i : Instr} {s u : State} {e : ErrCode} (hi : i ≠ .clrerr) (he : s.err = 0#4)
    (hv : verdictOf s i = .raise e u) : exec i s = .next ((u.raiseError e).consume i.format) := by
  rw [exec_eq_gated i s hi, gated_run _ _ _ he, hv]
  rfl

/-- DEC, ENC and SIZE raise what CheckTable answers (R86). -/
theorem exec_codec_of_checkTable_error {s : State} {t : BitVec 8} {e : ErrCode} (he : s.err = 0#4)
    (hc : s.checkTable t = .error e) :
    exec (.dec t) s = .next ((s.raiseError e).consume .h) ∧
    (∀ v, exec (.enc t v) s = .next ((s.raiseError e).consume .hp)) ∧
    (∀ v, exec (.size t v) s = .next ((s.raiseError e).consume .hp)) :=
  ⟨exec_raise (i := .dec t) nofun he (decVerdict_error s t e hc),
    fun v => exec_raise (i := .enc t v) nofun he (encVerdict_error s t v e hc),
    fun v => exec_raise (i := .size t v) nofun he (sizeVerdict_error s t v e hc)⟩

/-- Settles O29: CheckTable answers TINDEX to the codec commands, and the table commands find no table. -/
theorem tableIndexOutOfRangeRaisesTindex : Obligations.TableIndexOutOfRangeRaisesTindex := by
  intro s t he ht
  have hT := (s.table?_eq_none t).mpr ht
  obtain ⟨hdec, henc, hsize⟩ := exec_codec_of_checkTable_error he (s.checkTable_tindex t ht)
  exact ⟨hdec, henc, hsize,
    fun sel k n p => exec_raise (i := .tblWr t sel k n p) nofun he (tblWrVerdict_tindex s t sel k n p hT),
    fun sel => exec_raise (i := .tblRd t sel) nofun he (tblRdVerdict_tindex s t sel hT)⟩

/-- Settles O30: a table with an invalid entry is there and not ready, which CheckTable answers with TABLE_INVALID. -/
theorem invalidEntryRaisesTableInvalid : Obligations.InvalidEntryRaisesTableInvalid := by
  intro s t sel he hentry
  obtain ⟨T, hT, hsel⟩ := State.table?_of_entryAt hentry
  exact exec_codec_of_checkTable_error he (s.checkTable_invalid t T hT ((Quad.ready?_eq_none T).mpr ⟨sel, hsel⟩))

/-- Settles O36: the table is there, and fields that are not legal make no descriptor. -/
theorem illegalDescriptorRaisesDesc : Obligations.IllegalDescriptorRaisesDesc := by
  intro s t sel k n p he ht hleg
  obtain ⟨T, hT⟩ := s.table?_eq_some t ht
  have hd := Desc.ofFields_of_not_legal k n p (mt (legal_iff k n p).mp hleg)
  exact exec_raise (i := .tblWr t sel k n p) nofun he (tblWrVerdict_desc s t sel k n p T hT hd)

/-- Settles O28: both commands choose before they write or look at RSP. -/
theorem valueInNoRangeRaisesNoAlt : Obligations.ValueInNoRangeRaisesNoAlt := fun s t v D he hr hc =>
  ⟨exec_raise (i := .enc t v) nofun he (encVerdict_noAlt s t v D hr hc),
    exec_raise (i := .size t v) nofun he (sizeVerdict_noAlt s t v D hr hc)⟩

/-- The input bits an IN_EXHAUSTED loses: the draw, at most |IN| (R127, log 3). -/
def State.inputLoss (s : State) : Nat := Config.inputLossDraw s.draws % (s.inBits.length + 1)

theorem State.inputLoss_le (s : State) : s.inputLoss ≤ s.inBits.length :=
  Nat.lt_succ_iff.mp (Nat.mod_lt _ (Nat.succ_pos _))

/-- Settles O25: IN loses the draw, which is at most |IN|. -/
theorem decRaisesInputExhausted : Obligations.DecRaisesInputExhausted := fun s t D he hr hs heos =>
  ⟨s.inputLoss, s.inputLoss_le, exec_raise (i := .dec t) nofun he (decVerdict_exhausted s t D hr hs heos)⟩

/-! ### The first error of the priority list (R128) -/

/-- The code that a command with this verdict leaves in ERR, from ERR = 0. -/
def Verdict.errorCode : Verdict → BitVec 4
  | .done _ => 0#4
  | .raise e _ => e.code
  | .hold => 0#4

theorem settle_err_eq {i : Instr} {s : State} (f : Format) (he : s.err = 0#4) :
    (settle f s (verdictOf s i)).err = (verdictOf s i).errorCode := by
  have hk := verdictOf_keepsStatus i s
  cases hv : verdictOf s i with
  | done t =>
    rw [hv] at hk
    exact hk.1.trans he
  | raise e t => rfl
  | hold => exact he

/-- With ERR = 0 every command but CLRERR answers a next state, whose ERR is its verdict's. -/
theorem exec_err_eq {i : Instr} {s : State} {c : BitVec 4} (hi : i ≠ .clrerr) (he : s.err = 0#4)
    (hc : (verdictOf s i).errorCode = c) : ∃ u, exec i s = .next u ∧ u.err = c :=
  ⟨_, by rw [exec_eq_gated i s hi, gated_run _ _ _ he, commit_eq], (settle_err_eq i.format he).trans hc⟩

theorem errorCode_decVerdict_ready {s : State} {t : BitVec 8} {D : Quad Desc} (hr : s.readyAt t D) :
    (s.inputShort D ∧ s.eos = true → (decVerdict t s).errorCode = 6#4) ∧
    (¬ (s.inputShort D ∧ s.eos = true) → (decVerdict t s).errorCode = 0#4) := by
  refine ⟨fun ⟨hs, heos⟩ => by rw [decVerdict_exhausted s t D hr hs heos]; rfl, fun hn => ?_⟩
  by_cases hs : s.inputShort D
  · rw [decVerdict_starved s t D hr hs (Bool.eq_false_iff.mpr fun heos => hn ⟨hs, heos⟩)]
    rfl
  · rw [(decVerdict_ready s t D hr).2 hs]
    split <;> rfl

/-- The code of the first error of a command that checks table `t`, where `c` is the code on a ready table (R86, R128). -/
def State.codeAfterCheck (s : State) (t : BitVec 8) (c : Quad Desc → BitVec 4) : BitVec 4 :=
  match s.table? t with
  | none => 2#4
  | some T => match T.ready? with
    | none => 3#4
    | some D => c D

theorem errorCode_encVerdict (s : State) (t : BitVec 8) (v : Word) :
    (encVerdict t v s).errorCode = s.codeAfterCheck t fun D => if choose D v = none then 5#4 else 0#4 := by
  rcases s.checkTable_cases t with ⟨hc, hT⟩ | ⟨T, hc, hT, hR⟩ | ⟨T, D, hc, hT, hR⟩
  · rw [encVerdict_error s t v _ hc, State.codeAfterCheck, hT]
    rfl
  · rw [encVerdict_error s t v _ hc, State.codeAfterCheck, hT]
    simp only [hR]
    rfl
  · rw [State.codeAfterCheck, hT]
    simp only [hR]
    have hr := (s.checkTable_eq_ok t D).mp hc
    cases hch : choose D v with
    | none =>
      rw [encVerdict_noAlt s t v D hr hch]
      rfl
    | some sel =>
      rw [encVerdict_some s t v D sel hr hch]
      rfl

/-- SIZE raises what ENC raises, whether it then holds or not (R93). -/
theorem errorCode_sizeVerdict (s : State) (t : BitVec 8) (v : Word) :
    (sizeVerdict t v s).errorCode = (encVerdict t v s).errorCode := by
  rcases encVerdict_sizeVerdict_cases s t v with ⟨e, henc, hsize⟩ | ⟨D, sel, hr, hc⟩
  · rw [henc, hsize]
  · rw [encVerdict_some s t v D sel hr hc]
    rcases Nat.lt_or_ge s.rsp.length s.params.rspDepth with hf | hf
    · rw [sizeVerdict_done s t v D sel hr hc hf]
      rfl
    · rw [sizeVerdict_full s t v D sel hr hc hf]
      rfl

theorem errorCode_tblWrVerdict (s : State) (t : BitVec 8) (sel k : BitVec 2) (n : BitVec 6) (p : Word) :
    (tblWrVerdict t sel k n p s).errorCode =
      if s.numTables ≤ t.toNat then 2#4 else if legal k n p = true then 0#4 else 4#4 := by
  split
  next ht =>
    rw [tblWrVerdict_tindex s t sel k n p ((s.table?_eq_none t).mpr ht)]
    rfl
  next ht =>
    obtain ⟨T, hT⟩ := s.table?_eq_some t (Nat.not_le.mp ht)
    split
    next hleg =>
      obtain ⟨d, hd, -⟩ := Desc.ofFields_of_legal k n p hleg
      rw [tblWrVerdict_legal s t sel k n p T d hT hd]
      rfl
    next hleg =>
      rw [tblWrVerdict_desc s t sel k n p T hT (Desc.ofFields_of_not_legal k n p hleg)]
      rfl

theorem errorCode_tblRdVerdict (s : State) (t : BitVec 8) (sel : BitVec 2) :
    (tblRdVerdict t sel s).errorCode = if s.numTables ≤ t.toNat then 2#4 else 0#4 := by
  split
  next ht =>
    rw [tblRdVerdict_tindex s t sel ((s.table?_eq_none t).mpr ht)]
    rfl
  next ht =>
    obtain ⟨T, hT⟩ := s.table?_eq_some t (Nat.not_le.mp ht)
    rcases Nat.lt_or_ge s.params.rspDepth (s.rsp.length + 2) with hf | hf
    · rw [tblRdVerdict_full s t sel T hT hf]
      rfl
    · rw [tblRdVerdict_done s t sel T hT hf]
      rfl

/-- Settles O39: the gate and ILLEGAL, then each command's ERR as the code of its verdict. -/
theorem firstErrorOfThePriorityListIsRaised : Obligations.FirstErrorOfThePriorityListIsRaised := by
  refine ⟨fun w p s he hr hw => ⟨_, runCommand_discard hw he hr, rfl⟩,
    fun w p s he hill => ⟨_, runCommand_illegal he hill, rfl⟩, fun s t he => ⟨?_, fun v => ?_, fun v => ?_, ?_, ?_⟩⟩
  · obtain ⟨u, hu, herr⟩ := exec_err_eq (i := .dec t) nofun he rfl
    refine ⟨u, hu, ?_⟩
    rw [herr]
    rcases s.checkTable_cases t with ⟨hc, hT⟩ | ⟨T, hc, hT, hR⟩ | ⟨T, D, hc, hT, hR⟩
    · simp only [hT]
      exact congrArg Verdict.errorCode (decVerdict_error s t .tindex hc)
    · simp only [hT, hR]
      exact congrArg Verdict.errorCode (decVerdict_error s t .tableInvalid hc)
    · simp only [hT, hR]
      exact errorCode_decVerdict_ready ((s.checkTable_eq_ok t D).mp hc)
  · exact exec_err_eq (i := .enc t v) nofun he (errorCode_encVerdict s t v)
  · exact exec_err_eq (i := .size t v) nofun he ((errorCode_sizeVerdict s t v).trans (errorCode_encVerdict s t v))
  · exact fun sel k n p => exec_err_eq (i := .tblWr t sel k n p) nofun he (errorCode_tblWrVerdict s t sel k n p)
  · exact fun sel => exec_err_eq (i := .tblRd t sel) nofun he (errorCode_tblRdVerdict s t sel)

/-! ### What a raised error changes (R129) -/

/-- IN_EXHAUSTED alone changes the state before ERR is set: it loses input (R127). -/
theorem raise_cases {i : Instr} {s t : State} {e : ErrCode} (h : verdictOf s i = .raise e t) :
    (e ≠ .inExhausted ∧ t = s) ∨ (e = .inExhausted ∧ t = s.failInput) := by
  rcases verdictOf_cases i s with hv | ⟨e', hv, hne⟩ | ⟨t', -, -, hv⟩ | ⟨-, hv⟩ | ⟨t', D, -, -, -, -, hv⟩ |
    ⟨t', v, D, sel, -, -, -, hv⟩ | ⟨t', v, D, sel, -, -, -, -, hv⟩ | ⟨t', sel, k, n, p, T, d, -, -, -, hv⟩ |
    ⟨t', sel, T, -, -, -, hv⟩ <;> cases hv.symm.trans h
  · exact .inl ⟨hne, rfl⟩
  · exact .inr ⟨rfl, rfl⟩

/-- A command that ends with an error from ERR = 0 raised it. -/
theorem exec_raises {i : Instr} {s u : State} (he : s.err = 0#4) (h : exec i s = .next u) (hu : u.err ≠ 0#4) :
    ∃ e t, verdictOf s i = .raise e t ∧ u = (t.raiseError e).consume i.format := by
  obtain ⟨-, rfl⟩ | ⟨-, hne, -⟩ | ⟨-, -, rfl⟩ := exec_cases h
  · exact absurd rfl hu
  · exact absurd he hne
  · rw [settle_err_eq i.format he] at hu
    cases hv : verdictOf s i with
    | done t =>
      rw [hv] at hu
      exact absurd rfl hu
    | raise e t => exact ⟨e, t, rfl, rfl⟩
    | hold =>
      rw [hv] at hu
      exact absurd rfl hu

/-- Settles O40: a command raises in the state as it is, or with input lost, and then only ERR, the mark and the command's words
change. -/
theorem errorEntryChangesOnlyErr : Obligations.ErrorEntryChangesOnlyErr := by
  refine ⟨fun i s u he h hu => ?_, fun w p s he hill => ?_⟩
  · obtain ⟨e, t, hv, rfl⟩ := exec_raises he h hu
    refine ⟨e.code_le.1, e.code_le.2, State.errO_iff _ |>.mpr hu, ?_⟩
    rw [State.consume_format]
    rcases raise_cases hv with ⟨hne, rfl⟩ | ⟨rfl, rfl⟩
    · have hcode : e.code ≠ 6#4 := mt e.code_eq_six.mp hne
      exact ⟨0, Nat.zero_le _, fun _ => rfl, by simp [State.raiseError, hcode]⟩
    · exact ⟨s.inputLoss, s.inputLoss_le, fun hne => absurd rfl hne, rfl⟩
  · rw [runCommand_illegal he hill, State.consume_formatOf]
    rfl

/-! ### The fault mark (R133) -/

/-- The fault mark, if set in `s`, is set in `u`. -/
def State.KeepsMark (s u : State) : Prop := s.faultMark = true → u.faultMark = true

theorem State.KeepsMark.refl (s : State) : s.KeepsMark s := id

/-- No verdict writes the mark: raising is the only writer, at the end of the command. -/
theorem verdictOf_keepsMark (i : Instr) (s : State) : (verdictOf s i).Carries s.KeepsMark := by
  rcases verdictOf_cases i s with hv | ⟨e, hv, -⟩ | ⟨t, -, -, hv⟩ | ⟨-, hv⟩ | ⟨t, D, -, -, -, -, hv⟩ |
    ⟨t, v, D, sel, -, -, -, hv⟩ | ⟨t, v, D, sel, -, -, -, -, hv⟩ | ⟨t, sel, k, n, p, T, d, -, -, -, hv⟩ |
    ⟨t, sel, T, -, -, -, hv⟩ <;> rw [hv]
  · trivial
  all_goals exact .refl s

theorem runCommand_keepsMark {w p : Word} {s u : State} (h : runCommand w p s = .next u) : s.KeepsMark u := by
  obtain ⟨-, ⟨-, rfl⟩ | ⟨-, -, rfl⟩ | ⟨-, -, rfl⟩⟩ := runCommand_cases h
  · exact .refl s
  · exact .refl s
  · exact settle_of_carries (wordVerdict_carries (verdictOf_keepsMark · s) (.refl s) w p) (.refl s) (fun _ ht => ht)
      (fun _ _ _ _ => rfl)

theorem cicStep_keepsMark {s u : State} (h : cicStep s = .next u) : s.KeepsMark u := by
  rcases cicStep_cases s with ⟨-, hs⟩ | ⟨w, rest, -, -, -, hs⟩ | ⟨w, rest, -, -, -, hs⟩ | ⟨w, p, rest, -, -, hs⟩ <;>
    rw [hs] at h
  · cases h
    exact .refl s
  · cases h
    exact .refl s
  · exact runCommand_keepsMark h
  · exact runCommand_keepsMark h

/-- Every action of the host keeps the mark, Reset included (log 9). -/
theorem hostAct_keepsMark {a : HostAction} {s u : State} (h : hostAct a s = .next u) : s.KeepsMark u := by
  rcases hostAct_cases h with ⟨w, -, rfl⟩ | ⟨bs, -, -, rfl⟩ | ⟨-, rfl⟩ | ⟨-, rfl⟩ | ⟨w, ws, -, -, rfl⟩ | ⟨k, -, -, rfl⟩ |
    ⟨-, -, rfl⟩ | ⟨-, rfl⟩
  all_goals exact .refl s

theorem step_keepsMark {s u : State} (h : step s = .next u) : s.KeepsMark u := by
  rcases step_cases s with ⟨-, hs⟩ | ⟨as, -, hs⟩ | ⟨a, as, -, hs⟩ <;> rw [hs] at h
  · exact cicStep_keepsMark h
  · exact cicStep_keepsMark (s := s.withAgenda as) h
  · exact hostAct_keepsMark (s := s.withAgenda as) h

/-- Settles O43: no update clears the mark, and of the three writers of ERR only a raised error leaves ERR non-zero. -/
theorem faultMarkIsSetAndNeverCleared : Obligations.FaultMarkIsSetAndNeverCleared := by
  refine fun s u h => ⟨step_keepsMark h, fun he hu => ?_⟩
  rcases errHasOnlyThreeWriters s u h (he ▸ hu) with ⟨-, hmark, -⟩ | ⟨hzero, -⟩ | ⟨hzero, -⟩
  · exact hmark
  · exact absurd hzero hu
  · exact absurd hzero hu

end Sys2Proof.Machine

/-! SUPPORT. Reset and the end of a run (70_reset_and_hazards.md R145, R159): what an empty CMDQ and a held command say of the
CIC's step, and what STATUS reads after Reset. -/

namespace Sys2Proof.Machine

/-! ### The CIC without a step (R54) -/

/-- With CMDQ empty the CIC is idle or waits for a payload: either way it has no step. -/
theorem State.hasStep_of_cmdq_nil {s : State} (hq : s.cmdq = []) : s.hasStep = false := by
  simp [State.hasStep, cicStep_empty s hq]

theorem State.held_iff (s : State) : s.held = true ↔ s.cmdq ≠ [] ∧ s.hasStep = false := by
  simp [State.held]

/-! ### The end of a run (R159) -/

theorem State.complete_iff (s : State) :
    s.complete = true ↔ s.agenda = [] ∧ s.hasStep = false ∧ s.cmdq = [] ∧ s.pend = none := by
  simp [State.complete, State.ended, and_assoc]

theorem State.stuck_iff (s : State) :
    s.stuck = true ↔ s.agenda = [] ∧ s.hasStep = false ∧ ¬ (s.cmdq = [] ∧ s.pend = none) := by
  rw [← s.idle_iff, Bool.not_eq_true]
  simp [State.stuck, State.ended, and_assoc]

/-- Settles O20: an empty CMDQ gives the CIC no step, and without a step what stands in CMDQ is held. -/
theorem endedRunIsCompleteOrStuck : Obligations.EndedRunIsCompleteOrStuck := by
  intro s
  rw [s.complete_iff, s.stuck_iff, s.held_iff]
  by_cases hq : s.cmdq = []
  · simp [hq, State.hasStep_of_cmdq_nil hq]
  · simp [hq]

/-! ### STATUS after Reset (R37, R145) -/

theorem State.resetCic_idle (s : State) : s.resetCic.idle = true :=
  s.resetCic.idle_iff.mpr ⟨s.resetCic_cmdq, s.resetCic_pend⟩

theorem State.resetCic_errO (s : State) : s.resetCic.errO = false := by
  simp [State.errO]

theorem State.resetCic_statusWord (s : State) : s.resetCic.statusWord = 0x80000000#32 := by
  rw [State.statusWord, s.resetCic_idle, s.resetCic_llen, s.resetCic_lsel, s.resetCic_err]
  decide

/-- Settles O45: Reset's next state in any state, read field by field. -/
theorem resetRestoresEveryResetValue : Obligations.ResetRestoresEveryResetValue := by
  intro s
  exact ⟨s.resetCic, rfl, s.resetCic_tbl, s.resetCic_err, s.resetCic_lsel, s.resetCic_llen, s.resetCic_rsp, s.resetCic_cmdq,
    s.resetCic_pend, s.resetCic_inBits, s.resetCic_eos, s.resetCic_outBits, s.resetCic_idle, s.resetCic_errO,
    s.resetCic_statusWord⟩

end Sys2Proof.Machine
